-- ==== Sys2Proof/Word.lean ====
section
/-! DEFINITION. The machine's value widths (spec/10_state.md R45): 8-bit cells, 16-bit cells, register indices and the
immediate fields of an instruction word. Every quantity is unsigned (spec/00_scope.md R8). -/

namespace Sys2Proof

/-- An 8-bit cell: a V register, DT, ST, a memory byte (R31, R36, R39). -/
abbrev Byte := BitVec 8

/-- A 16-bit cell: I, pc, a stack entry, an instruction word (R33, R34, R35, R90). -/
abbrev Word := BitVec 16

/-- The index of a V register, 0 to 15 (R31). -/
abbrev Reg := Fin 16

/-- The index of a key, 0 to 15 (R37). -/
abbrev KeyIndex := Fin 16

/-- The 12-bit immediate `nnn` (R91). -/
abbrev Imm12 := BitVec 12

/-- The 8-bit immediate `kk` (R91). -/
abbrev Imm8 := BitVec 8

/-- The 4-bit row count `n` (R91). -/
abbrev Imm4 := BitVec 4

/-- V[15], the flag register VF (R32). -/
def vf : Reg := 15

/-- V[0], the index register of JP V0,nnn (R168). -/
def v0 : Reg := 0

end Sys2Proof
end

