-- ==== Sys2Proof/Config.lean ====
section
/-! DEFINITION. The parameters of spec/00_scope.md R7 that are fixed for this hardware, and the one free value the spec
leaves: the random byte of each RND (R152). The parameter FONT is in Sys2Proof/Machine/Font.lean. -/

namespace Sys2Proof.Config

/-- MEM_SIZE: 4096 bytes, addresses 0x000 to 0xFFF (R7, R60). -/
def memSize : Nat := 4096

/-- STACK_DEPTH: at most 16 return addresses (R7, R35). -/
def stackDepth : Nat := 16

/-- FB_H: 32 rows of pixels (R7, R38). -/
def fbHeight : Nat := 32

/-- FB_W: 64 columns of pixels (R7, R38). -/
def fbWidth : Nat := 64

/-- PROG_BASE: load address and reset pc (R7, R34, R282). -/
def progBase : Nat := 0x200

/-- MAX_IMAGE: 0xFFF - 0x200 = 3583 bytes (R7, R282; spec/90_conflicts.md C3). -/
def maxImage : Nat := 0xFFF - 0x200

/-- GLYPH_BYTES: 5 bytes a glyph (R7, R41). -/
def glyphBytes : Nat := 5

/-- NGLYPHS: 16 glyphs (R7, R41). -/
def nGlyphs : Nat := 16

/-- The `rnd` input of the Steps that execute RND, as an uninterpreted stream: `rnd n` is the byte the host supplies to
the n-th RND. The spec gives it no law at all (R152, decision D15), so it has no body: a claim holds for every value.
DESIGN CHOICE, safe: assumption log 1. -/
opaque rnd : Nat → Byte

end Sys2Proof.Config
end

