-- ==== Sys2Proof/Syntax.lean ====
section
/-! DEFINITION. The 34 instructions of spec/30_encoding.md R96 (spec/opcode_table.json), one constructor a row, with the
operand fields the row's format gives it (R92). Operand types carry the field widths, so every term is a legal
instruction; the range checks of written operands are in Sys2Proof/WellFormed.lean. -/

namespace Sys2Proof

/-- The instructions, in the order of the opcode table. The fields a row ignores (bits 11:8 of CLS and RET, bits 3:0 of
5xy- and 9xy-, field y of SHR and SHL) are no operands (R99). -/
inductive Instr where
  | cls                                             -- 0-E0
  | ret                                             -- 0-EE
  | jpNnn (nnn : Imm12)                             -- 1nnn
  | callNnn (nnn : Imm12)                           -- 2nnn
  | seVxKk (x : Reg) (kk : Imm8)                    -- 3xkk
  | sneVxKk (x : Reg) (kk : Imm8)                   -- 4xkk
  | seVxVy (x y : Reg)                              -- 5xy-
  | ldVxKk (x : Reg) (kk : Imm8)                    -- 6xkk
  | addVxKk (x : Reg) (kk : Imm8)                   -- 7xkk
  | ldVxVy (x y : Reg)                              -- 8xy0
  | orVxVy (x y : Reg)                              -- 8xy1
  | andVxVy (x y : Reg)                             -- 8xy2
  | xorVxVy (x y : Reg)                             -- 8xy3
  | addVxVy (x y : Reg)                             -- 8xy4
  | subVxVy (x y : Reg)                             -- 8xy5
  | shrVx (x : Reg)                                 -- 8xy6
  | subnVxVy (x y : Reg)                            -- 8xy7
  | shlVx (x : Reg)                                 -- 8xyE
  | sneVxVy (x y : Reg)                             -- 9xy-
  | ldINnn (nnn : Imm12)                            -- Annn
  | jpV0Nnn (nnn : Imm12)                           -- Bnnn
  | rndVxKk (x : Reg) (kk : Imm8)                   -- Cxkk
  | drwVxVyN (x y : Reg) (n : Imm4)                 -- Dxyn
  | skpVx (x : Reg)                                 -- Ex9E
  | sknpVx (x : Reg)                                -- ExA1
  | ldVxDT (x : Reg)                                -- Fx07
  | ldVxK (x : Reg)                                 -- Fx0A
  | ldDTVx (x : Reg)                                -- Fx15
  | ldSTVx (x : Reg)                                -- Fx18
  | addIVx (x : Reg)                                -- Fx1E
  | ldFVx (x : Reg)                                 -- Fx29
  | ldBVx (x : Reg)                                 -- Fx33
  | ldMemIVx (x : Reg)                              -- Fx55, LD [I],Vx
  | ldVxMemI (x : Reg)                              -- Fx65, LD Vx,[I]
  deriving DecidableEq, Repr

end Sys2Proof
end

