-- ==== Sys2Proof/Decode.lean ====
section
/-! DEFINITION. Decoding and encoding (spec/30_encoding.md): the fields of an instruction word (R91), the two-level
dispatch (R94, R96, R97), the four groups of unknown opcodes by name (R98), and the encoder (R104). Decoding depends on
the word alone (R100). -/

namespace Sys2Proof

/-- Why bytes are no instruction: the four groups of unknown opcodes of R98, or fewer than two bytes. An unknown opcode
is no error of the machine: a Step executes it as a silent no-op (R124). -/
inductive Reject where
  /-- op = 0 and kk is neither 0xE0 nor 0xEE. -/
  | unknown0
  /-- op = 8 and n is one of 8, 9, A, B, C, D, F. -/
  | unknown8
  /-- op = E and kk is neither 0x9E nor 0xA1. -/
  | unknownE
  /-- op = F and kk is none of 07, 0A, 15, 18, 1E, 29, 33, 55, 65. -/
  | unknownF
  /-- A byte list shorter than one instruction word. -/
  | truncated
  deriving DecidableEq, Repr

/-- What a word decodes to. -/
inductive Decoded where
  | instr (i : Instr)
  | reject (why : Reject)
  deriving DecidableEq, Repr

def Decoded.instr? : Decoded → Option Instr
  | .instr i => some i
  | .reject _ => none

/-! Fields (R91). -/

/-- op = w[15:12]. -/
def opField (w : Word) : BitVec 4 := w.extractLsb' 12 4

/-- x = w[11:8]. -/
def xField (w : Word) : Reg := (w.extractLsb' 8 4).toFin

/-- y = w[7:4]. -/
def yField (w : Word) : Reg := (w.extractLsb' 4 4).toFin

/-- n = w[3:0]. -/
def nField (w : Word) : Imm4 := w.extractLsb' 0 4

/-- kk = w[7:0]. -/
def kkField (w : Word) : Imm8 := w.extractLsb' 0 8

/-- nnn = w[11:0]. -/
def nnnField (w : Word) : Imm12 := w.extractLsb' 0 12

/-! Second level of the dispatch: the four families the high nibble does not settle (R94). -/

/-- Family 0, selected by the low byte; bits 11:8 are not examined (R99). -/
def decode0 (w : Word) : Decoded :=
  match kkField w with
  | 0xE0#8 => .instr .cls
  | 0xEE#8 => .instr .ret
  | _ => .reject .unknown0

/-- Family 8, selected by the low nibble. -/
def decode8 (w : Word) : Decoded :=
  match nField w with
  | 0x0#4 => .instr (.ldVxVy (xField w) (yField w))
  | 0x1#4 => .instr (.orVxVy (xField w) (yField w))
  | 0x2#4 => .instr (.andVxVy (xField w) (yField w))
  | 0x3#4 => .instr (.xorVxVy (xField w) (yField w))
  | 0x4#4 => .instr (.addVxVy (xField w) (yField w))
  | 0x5#4 => .instr (.subVxVy (xField w) (yField w))
  | 0x6#4 => .instr (.shrVx (xField w))
  | 0x7#4 => .instr (.subnVxVy (xField w) (yField w))
  | 0xE#4 => .instr (.shlVx (xField w))
  | _ => .reject .unknown8

/-- Family E, selected by the low byte. -/
def decodeE (w : Word) : Decoded :=
  match kkField w with
  | 0x9E#8 => .instr (.skpVx (xField w))
  | 0xA1#8 => .instr (.sknpVx (xField w))
  | _ => .reject .unknownE

/-- Family F, selected by the low byte. -/
def decodeF (w : Word) : Decoded :=
  match kkField w with
  | 0x07#8 => .instr (.ldVxDT (xField w))
  | 0x0A#8 => .instr (.ldVxK (xField w))
  | 0x15#8 => .instr (.ldDTVx (xField w))
  | 0x18#8 => .instr (.ldSTVx (xField w))
  | 0x1E#8 => .instr (.addIVx (xField w))
  | 0x29#8 => .instr (.ldFVx (xField w))
  | 0x33#8 => .instr (.ldBVx (xField w))
  | 0x55#8 => .instr (.ldMemIVx (xField w))
  | 0x65#8 => .instr (.ldVxMemI (xField w))
  | _ => .reject .unknownF

/-- The dispatch: the high nibble first (R94, R97). Total on every word. -/
def decode (w : Word) : Decoded :=
  match opField w with
  | 0x0#4 => decode0 w
  | 0x1#4 => .instr (.jpNnn (nnnField w))
  | 0x2#4 => .instr (.callNnn (nnnField w))
  | 0x3#4 => .instr (.seVxKk (xField w) (kkField w))
  | 0x4#4 => .instr (.sneVxKk (xField w) (kkField w))
  | 0x5#4 => .instr (.seVxVy (xField w) (yField w))
  | 0x6#4 => .instr (.ldVxKk (xField w) (kkField w))
  | 0x7#4 => .instr (.addVxKk (xField w) (kkField w))
  | 0x8#4 => decode8 w
  | 0x9#4 => .instr (.sneVxVy (xField w) (yField w))
  | 0xA#4 => .instr (.ldINnn (nnnField w))
  | 0xB#4 => .instr (.jpV0Nnn (nnnField w))
  | 0xC#4 => .instr (.rndVxKk (xField w) (kkField w))
  | 0xD#4 => .instr (.drwVxVyN (xField w) (yField w) (nField w))
  | 0xE#4 => decodeE w
  | _ => decodeF w

/-! Bytes: two a word, the high byte first (spec/20_memory.md R62, R90). -/

def wordOfBytes (hi lo : Byte) : Word := hi ++ lo

def hiByte (w : Word) : Byte := w.extractLsb' 8 8

def loByte (w : Word) : Byte := w.extractLsb' 0 8

/-- Decode the instruction at the head of a byte list, with the bytes after it. -/
def decodeBytes : List Byte → Except Reject (Instr × List Byte)
  | hi :: lo :: rest =>
    match decode (wordOfBytes hi lo) with
    | .instr i => .ok (i, rest)
    | .reject r => .error r
  | _ => .error .truncated

/-- The instruction word whose bits are `w`, as spec/opcode_table.json numbers them; the bits above `nbits` are 0. -/
def wordOfTable (nbits w : Nat) : Word := BitVec.ofNat 16 (w % 2 ^ nbits)

/-- What the decoder reads from the table's bits `w`: the word is laid out as two bytes, high byte first, and decoded. -/
def decodeTableWord (nbits w : Nat) : Option Instr :=
  let word := wordOfTable nbits w
  (decode (wordOfBytes (hiByte word) (loByte word))).instr?

/-! The encoder (R104): the fields placed at the positions of R91, ignored bits and the unused y of SHR and SHL zero
(R99), by format (R92). -/

def regBits (x : Reg) : BitVec 4 := BitVec.ofFin x

/-- Format NNN: op(4) . nnn(12). -/
def wordNNN (op : BitVec 4) (nnn : Imm12) : Word := op ++ nnn

/-- Formats XKK and XF: op(4) . x(4) . kk(8). -/
def wordXKK (op : BitVec 4) (x : Reg) (kk : Imm8) : Word := op ++ (regBits x ++ kk)

/-- Formats XY, XYF and XYN: op(4) . x(4) . y(4) . n(4). -/
def wordXYN (op : BitVec 4) (x y : Reg) (n : Imm4) : Word := op ++ (regBits x ++ (regBits y ++ n))

def encode : Instr → Word
  | .cls => wordXKK 0x0#4 0 0xE0#8
  | .ret => wordXKK 0x0#4 0 0xEE#8
  | .jpNnn nnn => wordNNN 0x1#4 nnn
  | .callNnn nnn => wordNNN 0x2#4 nnn
  | .seVxKk x kk => wordXKK 0x3#4 x kk
  | .sneVxKk x kk => wordXKK 0x4#4 x kk
  | .seVxVy x y => wordXYN 0x5#4 x y 0x0#4
  | .ldVxKk x kk => wordXKK 0x6#4 x kk
  | .addVxKk x kk => wordXKK 0x7#4 x kk
  | .ldVxVy x y => wordXYN 0x8#4 x y 0x0#4
  | .orVxVy x y => wordXYN 0x8#4 x y 0x1#4
  | .andVxVy x y => wordXYN 0x8#4 x y 0x2#4
  | .xorVxVy x y => wordXYN 0x8#4 x y 0x3#4
  | .addVxVy x y => wordXYN 0x8#4 x y 0x4#4
  | .subVxVy x y => wordXYN 0x8#4 x y 0x5#4
  | .shrVx x => wordXYN 0x8#4 x 0 0x6#4
  | .subnVxVy x y => wordXYN 0x8#4 x y 0x7#4
  | .shlVx x => wordXYN 0x8#4 x 0 0xE#4
  | .sneVxVy x y => wordXYN 0x9#4 x y 0x0#4
  | .ldINnn nnn => wordNNN 0xA#4 nnn
  | .jpV0Nnn nnn => wordNNN 0xB#4 nnn
  | .rndVxKk x kk => wordXKK 0xC#4 x kk
  | .drwVxVyN x y n => wordXYN 0xD#4 x y n
  | .skpVx x => wordXKK 0xE#4 x 0x9E#8
  | .sknpVx x => wordXKK 0xE#4 x 0xA1#8
  | .ldVxDT x => wordXKK 0xF#4 x 0x07#8
  | .ldVxK x => wordXKK 0xF#4 x 0x0A#8
  | .ldDTVx x => wordXKK 0xF#4 x 0x15#8
  | .ldSTVx x => wordXKK 0xF#4 x 0x18#8
  | .addIVx x => wordXKK 0xF#4 x 0x1E#8
  | .ldFVx x => wordXKK 0xF#4 x 0x29#8
  | .ldBVx x => wordXKK 0xF#4 x 0x33#8
  | .ldMemIVx x => wordXKK 0xF#4 x 0x55#8
  | .ldVxMemI x => wordXKK 0xF#4 x 0x65#8

/-- The two bytes of an instruction, in the order they stand in memory (R90). -/
def encodeBytes (i : Instr) : List Byte := [hiByte (encode i), loByte (encode i)]

end Sys2Proof
end

