-- ==== Sys2Proof/Machine/State.lean ====
section
/-! DEFINITION. The machine's state (spec/10_state.md): the nine elements of R30, and the model's own two fields `diag`
(an output the spec does not store) and `draws` (the index of the next free random byte). Faults, refusals, reset. -/

namespace Sys2Proof.Machine

/-- Memory (R39, R60) as the list of the bytes that differ from what an unlisted address reads as
(Memory.unlisted, the contents after a Reset with the default FONT): addresses strictly rising, Memory.wf. -/
abbrev Memory := List Host.Cell

/-- The framebuffer: 32 rows of 64 one-bit pixels, row 0 at the top, column 0 at the left (R38). -/
abbrev Framebuffer := Vector (Vector Bool 64) 32

/-- The `diag` result of a Step (spec/40_step_decode_dispatch.md R126): four independent flags. -/
structure Diag where
  /-- Bit 0: the fetched word matches no instruction. -/
  unknownOpcode : Bool
  /-- Bit 1: CALL with depth 16. -/
  stackOverflow : Bool
  /-- Bit 2: RET with depth 0. -/
  stackUnderflow : Bool
  /-- Bit 3: a byte access at an address of 4096 or more. -/
  memOob : Bool
  deriving DecidableEq, Repr

/-- diag = 0000, the normal case. -/
def Diag.none : Diag := ⟨false, false, false, false⟩

/-- The machine's state. -/
structure State where
  /-- V[0..15] (R31); V[15] is VF, the only flag (R32). -/
  v : Vector Byte 16
  /-- I, the 16-bit address register, never masked (R33). -/
  i : Word
  /-- The program counter (R34). -/
  pc : Word
  /-- The live return addresses, the top first (R35). -/
  stack : List Word
  /-- DT, the delay timer (R36). -/
  dt : Byte
  /-- ST, the sound timer (R36). -/
  st : Byte
  /-- key[0..15], true = held down (R37). -/
  key : Vector Bool 16
  /-- The framebuffer (R38). -/
  fb : Framebuffer
  /-- The memory (R39). -/
  mem : Memory
  /-- The model's own field: the `diag` OUTPUT of the last Step. No state of the spec (R30, R40): the step clears it
  first and nothing reads it. DESIGN CHOICE, safe: assumption log 2. -/
  diag : Diag
  /-- The model's own field: how many free random bytes (Config.rnd) have been used. DESIGN CHOICE, safe: log 1. -/
  draws : Nat
  deriving DecidableEq, Repr

/-- The reasons the machine stops with a fault: none. "The hardware has no fault, trap, hang or undefined result" (R16,
R250), so the type is empty and no meaning can answer a fault. Nobody raises one; that is exact, neither safe nor unsafe. -/
inductive Fault where
  deriving DecidableEq, Repr

/-- The reasons the model refuses an instruction. -/
inductive Refusal where
  /-- Raised only by an arm of Sys2Proof.Machine.exec for an instruction that has no meaning yet (there is none now).
  Safe: the model stops where the hardware goes on. -/
  | notModelled (mnemonic : String)
  deriving DecidableEq, Repr

/-- The state after a Reset with the default FONT (R41, R43, R280): V, I, timers, keys, pixels all zero, stack empty, pc =
0x200; memory lists nothing, so it reads that FONT at 0x000..0x04F and 0x00 elsewhere. For any FONT: State.resetWith. The model's own fields are 0000 and 0 (DESIGN CHOICE: log 1, log 2). -/
def State.reset : State where
  v := Vector.replicate 16 0x00#8
  i := 0x0000#16
  pc := 0x0200#16
  stack := []
  dt := 0x00#8
  st := 0x00#8
  key := Vector.replicate 16 false
  fb := Vector.replicate 32 (Vector.replicate 64 false)
  mem := []
  diag := Diag.none
  draws := 0

end Sys2Proof.Machine
end

