-- ==== Sys2Proof/Machine/Framebuffer.lean ====
section
/-! DEFINITION. One pixel of the framebuffer (spec/10_state.md R38), by row and column as natural numbers: a coordinate
off the 32 by 64 grid reads as 0 and discards a write (spec/44_draw.md R202). -/

namespace Sys2Proof.Machine

/-- fb[r][c]; 0 off the grid. -/
def Framebuffer.get (fb : Framebuffer) (r c : Nat) : Bool :=
  if h : r < 32 ∧ c < 64 then (fb[r]'h.1)[c]'h.2 else false

/-- fb[r][c] <- p; nothing off the grid. -/
def Framebuffer.set (fb : Framebuffer) (r c : Nat) (p : Bool) : Framebuffer :=
  if h : r < 32 ∧ c < 64 then Vector.set fb r (Vector.set (fb[r]'h.1) c p h.2) h.1 else fb

/-- Every pixel 0 (R200). -/
def Framebuffer.clear : Framebuffer := Vector.replicate 32 (Vector.replicate 64 false)

end Sys2Proof.Machine
end

