-- ==== Sys2Proof/Machine/Font.lean ====
section
/-! DEFINITION. FONT (spec/10_state.md R41): a parameter of the model, any 80 bytes, which Reset and LoadProgram take as
an argument (spec/00_scope.md R7, decision D16); and its default value, 16 glyphs of 5 bytes, top row first, whose bytes are
the spec's "general knowledge, not in source" (G3). PRESUMED, unsafe where a claim names a byte of it: assumption log 3. -/

namespace Sys2Proof.Machine

/-- A font: 80 bytes, glyph g at indices 5g to 5g + 4 (R41). -/
abbrev Font := Vector Byte 80

/-- Glyphs 0 to 7 of the default. -/
def fontLow : List Byte :=
  [0xF0#8, 0x90#8, 0x90#8, 0x90#8, 0xF0#8] ++ [0x20#8, 0x60#8, 0x20#8, 0x20#8, 0x70#8] ++
  [0xF0#8, 0x10#8, 0xF0#8, 0x80#8, 0xF0#8] ++ [0xF0#8, 0x10#8, 0xF0#8, 0x10#8, 0xF0#8] ++
  [0x90#8, 0x90#8, 0xF0#8, 0x10#8, 0x10#8] ++ [0xF0#8, 0x80#8, 0xF0#8, 0x10#8, 0xF0#8] ++
  [0xF0#8, 0x80#8, 0xF0#8, 0x90#8, 0xF0#8] ++ [0xF0#8, 0x10#8, 0x20#8, 0x40#8, 0x40#8]

/-- Glyphs 8 to F of the default. -/
def fontHigh : List Byte :=
  [0xF0#8, 0x90#8, 0xF0#8, 0x90#8, 0xF0#8] ++ [0xF0#8, 0x90#8, 0xF0#8, 0x10#8, 0xF0#8] ++
  [0xF0#8, 0x90#8, 0xF0#8, 0x90#8, 0x90#8] ++ [0xE0#8, 0x90#8, 0xE0#8, 0x90#8, 0xE0#8] ++
  [0xF0#8, 0x80#8, 0x80#8, 0x80#8, 0xF0#8] ++ [0xE0#8, 0x90#8, 0x90#8, 0x90#8, 0xE0#8] ++
  [0xF0#8, 0x80#8, 0xF0#8, 0x80#8, 0xF0#8] ++ [0xF0#8, 0x80#8, 0xF0#8, 0x80#8, 0x80#8]

/-- The default FONT (R41). -/
def defaultFont : Font := ⟨(fontLow ++ fontHigh).toArray, rfl⟩

/-- The byte of the default FONT at an address below 80, 0x00 from there on. -/
def defaultFontByte (a : Nat) : Byte := (fontLow ++ fontHigh).getD a 0x00#8

end Sys2Proof.Machine
end

