-- ==== Sys2Proof/Machine/Memory.lean ====
section
/-! DEFINITION. Memory as plain data: what an unlisted address reads as, reading and writing one byte of the list, the
canonical form. The bounds policy stands above these, in Sys2Proof/Machine/Ops.lean. -/

namespace Sys2Proof.Machine

/-- What an address reads as that the list does not name: the contents after a Reset with the default FONT
(spec/10_state.md R41, R43). Only the point the list is counted from: with another FONT the list names the bytes that
differ, so every contents of memory is some list (log 4). -/
def Memory.unlisted (a : Nat) : Byte := defaultFontByte a

/-- The byte at an address. -/
def Memory.get : Memory → Nat → Byte
  | [], a => Memory.unlisted a
  | (k, c) :: rest, a => if k = a then c else Memory.get rest a

/-- The list without an entry for `a`. -/
def Memory.erase : Memory → Nat → Memory
  | [], _ => []
  | (k, c) :: rest, a => if k = a then Memory.erase rest a else (k, c) :: Memory.erase rest a

/-- The list with the entry `(a, b)` put before the first entry of a higher address. -/
def Memory.insert : Memory → Nat → Byte → Memory
  | [], a, b => [(a, b)]
  | (k, c) :: rest, a, b => if a < k then (a, b) :: (k, c) :: rest else (k, c) :: Memory.insert rest a b

/-- Store one byte, keeping the canonical form: the old entry goes, a new one stands in its place unless the byte is what
the address reads as unlisted. -/
def Memory.put (m : Memory) (a : Nat) (b : Byte) : Memory :=
  if b = Memory.unlisted a then Memory.erase m a else Memory.insert (Memory.erase m a) a b

/-- Store a list of bytes at consecutive addresses from `a`. -/
def Memory.putAll : Memory → Nat → List Byte → Memory
  | m, _, [] => m
  | m, a, b :: bs => Memory.putAll (Memory.put m a b) (a + 1) bs

/-- The memory after a Reset with the given FONT: FONT at 0x000..0x04F, 0x00 elsewhere (R43). -/
def Memory.ofFont (font : Font) : Memory := Memory.putAll [] 0 font.toList

/-- The canonical form from address `lo` on: addresses at least `lo`, strictly rising and below 4096, no entry equal to
what its address reads as unlisted. -/
def Memory.wfFrom : Nat → Memory → Bool
  | _, [] => true
  | lo, (k, c) :: rest =>
    decide (lo ≤ k) && decide (k < Config.memSize) && decide (c ≠ Memory.unlisted k) && Memory.wfFrom (k + 1) rest

/-- The canonical form: equal memories are equal lists. -/
def Memory.wf (m : Memory) : Bool := Memory.wfFrom 0 m

end Sys2Proof.Machine
end

