-- ==== Sys2Proof/Machine/Ops.lean ====
section
/-! DEFINITION. The named operations over registers, memory, call stack, keys and diag that every meaning is built from
(spec/00_scope.md R9), the fetch (R63, R120) and the unknown opcode (R124). The spec gives the machine no exception: there
is no entry and no return to model (spec/60_exceptions.md R250, R254, R255). -/

namespace Sys2Proof.Machine

/-- What a meaning answers. -/
abbrev Result := Host.Outcome State Fault Refusal

/-! Registers (R31, R33, R34, R36). -/

/-- V[x]. -/
def State.getV (s : State) (x : Reg) : Byte := s.v.get x

/-- V[x] <- b. -/
def State.setV (s : State) (x : Reg) (b : Byte) : State := { s with v := s.v.set x.val b x.isLt }

/-- I <- a. -/
def State.setI (s : State) (a : Word) : State := { s with i := a }

/-- pc <- a. -/
def State.setPc (s : State) (a : Word) : State := { s with pc := a }

/-- DT <- b. -/
def State.setDt (s : State) (b : Byte) : State := { s with dt := b }

/-- ST <- b. -/
def State.setSt (s : State) (b : Byte) : State := { s with st := b }

/-- The framebuffer is replaced. -/
def State.setFb (s : State) (fb : Framebuffer) : State := { s with fb := fb }

/-- The memory is replaced. -/
def State.setMem (s : State) (m : Memory) : State := { s with mem := m }

/-- The call stack is replaced. -/
def State.setStack (s : State) (l : List Word) : State := { s with stack := l }

/-- fb[r][c]; 0 off the grid. -/
def State.pixel (s : State) (r c : Nat) : Bool := s.fb.get r c

/-! Keys (R37). -/

/-- key[k] for a natural number k: a number above 15 names no key and is not pressed (spec/45_timer_input.md R230). -/
def State.keyDownAt (s : State) (k : Nat) : Bool := if h : k < 16 then s.key[k]'h else false

/-- key[k] <- p. -/
def State.setKey (s : State) (k : KeyIndex) (p : Bool) : State := { s with key := s.key.set k.val p k.isLt }

/-- The lowest pressed key, none when no key is down (spec/45_timer_input.md R225). -/
def State.lowestKey (s : State) : Option KeyIndex := (List.finRange 16).find? fun k => s.keyDownAt k.val

/-! The diag output (R126, R251): a flag, once raised in a Step, stays raised to its end (R253). -/

def State.setDiag (s : State) (d : Diag) : State := { s with diag := d }

/-- diag UNKNOWN_OPCODE. -/
def State.raiseUnknownOpcode (s : State) : State := s.setDiag { s.diag with unknownOpcode := true }

/-- diag STACK_OVERFLOW. -/
def State.raiseStackOverflow (s : State) : State := s.setDiag { s.diag with stackOverflow := true }

/-- diag STACK_UNDERFLOW. -/
def State.raiseStackUnderflow (s : State) : State := s.setDiag { s.diag with stackUnderflow := true }

/-- diag MEM_OOB. -/
def State.raiseMemOob (s : State) : State := s.setDiag { s.diag with memOob := true }

/-- diag as the 4 bits of R126: bit 0 UNKNOWN_OPCODE, bit 1 STACK_OVERFLOW, bit 2 STACK_UNDERFLOW, bit 3 MEM_OOB. -/
def Diag.bits (d : Diag) : BitVec 4 :=
  BitVec.ofBool d.memOob ++ (BitVec.ofBool d.stackUnderflow ++ (BitVec.ofBool d.stackOverflow ++ BitVec.ofBool d.unknownOpcode))

/-- One free random byte has been used (log 1). -/
def State.nextDraw (s : State) : State := { s with draws := s.draws + 1 }

/-! Memory (spec/20_memory.md R64, R65). An address is a natural number, in bounds below 4096. -/

/-- The byte MemRead(a, 1) gives: mem[a] in bounds, 0x00 out of bounds (R64). -/
def State.readByte (s : State) (a : Nat) : Byte := if a < Config.memSize then s.mem.get a else 0x00#8

/-- The diag side of a byte access at `a`: MEM_OOB out of bounds, nothing in bounds (R64, R65). -/
def State.noteAccess (s : State) (a : Nat) : State := if a < Config.memSize then s else s.raiseMemOob

/-- The diag side of accesses at `a`, ..., `a + n - 1`. -/
def State.noteAccesses (s : State) (a : Nat) : Nat → State
  | 0 => s
  | n + 1 => (s.noteAccesses a n).noteAccess (a + n)

/-- MemWrite(a, 1, b): stored in bounds; out of bounds dropped, with MEM_OOB (R65). -/
def State.writeByte (s : State) (a : Nat) (b : Byte) : State :=
  if a < Config.memSize then s.setMem (s.mem.put a b) else s.raiseMemOob

/-- MemWrite of a list of bytes at consecutive addresses, in increasing order, each judged by itself (R65, R68). -/
def State.writeBytes : State → Nat → List Byte → State
  | s, _, [] => s
  | s, a, b :: bs => (s.writeByte a b).writeBytes (a + 1) bs

/-- The registers V[0], ..., V[x], ascending. -/
def regsUpTo (x : Reg) : List Reg := (List.finRange 16).take (x.val + 1)

/-- V[k] <- MemRead(a + k, 1) for every k of the list, in its order. -/
def State.loadRegs : State → Nat → List Reg → State
  | s, _, [] => s
  | s, a, k :: ks => ((s.noteAccess (a + k.val)).setV k (s.readByte (a + k.val))).loadRegs a ks

/-! The call stack (spec/10_state.md R35). -/

/-- The number of live entries. -/
def State.depth (s : State) : Nat := s.stack.length

/-- Push, dropped with STACK_OVERFLOW at depth 16 (spec/42_control_flow.md R161). -/
def State.push (s : State) (a : Word) : State :=
  if s.depth < Config.stackDepth then s.setStack (a :: s.stack) else s.raiseStackOverflow

/-- pc <- Pop(), or nothing but STACK_UNDERFLOW on an empty stack (R162). -/
def State.popToPc (s : State) : State :=
  match s.stack with
  | a :: rest => (s.setStack rest).setPc a
  | [] => s.raiseStackUnderflow

/-! Fetch (R63, R120, R122). -/

/-- MemRead(a, 2): two independent byte reads, the first the high byte, the second address not wrapped (R62, R63). -/
def State.readWord (s : State) (a : Nat) : Word := wordOfBytes (s.readByte a) (s.readByte (a + 1))

/-- The word the next Step fetches. -/
def State.fetchWord (s : State) : Word := s.readWord s.pc.toNat

/-- The state in which the fetched instruction runs: diag cleared and then set by the fetch, pc advanced by 2. -/
def State.afterFetch (s : State) : State :=
  ((s.setDiag Diag.none).noteAccesses s.pc.toNat 2).setPc (s.pc + 2)

/-- The unknown opcode: diag UNKNOWN_OPCODE and nothing else (R124). -/
def unknownOpcode (s : State) : Result := .next s.raiseUnknownOpcode

/-- Place an instruction word where the next Step fetches it: its two bytes at pc and pc + 1. Where pc + 1 is outside
memory nothing can be fetched from a placed word, so pc is moved to 0x200 first. No operation of the machine: it stands
for the host's load (log 5). -/
def State.placeWord (s : State) (w : Word) : State :=
  let t := if s.pc.toNat + 1 < Config.memSize then s else s.setPc (BitVec.ofNat 16 Config.progBase)
  t.writeBytes t.pc.toNat [hiByte w, loByte w]

end Sys2Proof.Machine
end

