-- ==== Sys2Proof/Machine/Operands.lean ====
section
/-! DEFINITION. The operand forms and computed operands of spec/30_encoding.md R93: zero-extended immediates, the effective
address base, the glyph address, the indexed jump target, the BCD digits, the skip. -/

namespace Sys2Proof.Machine

/-- zext_16 of a 12-bit immediate. -/
def zext12 (nnn : Imm12) : Word := nnn.setWidth 16

/-- zext_16 of a byte. -/
def zext8 (b : Byte) : Word := b.setWidth 16

/-- The base of every data address: I as a natural number, so that I + k never wraps (spec/20_memory.md R66). -/
def State.dataBase (s : State) : Nat := s.i.toNat

/-- The glyph address: the whole byte times 5 (spec/43_memory_address.md R182). -/
def glyphAddress (b : Byte) : Word := BitVec.ofNat 16 (b.toNat * Config.glyphBytes)

/-- The indexed jump target: (V[0] + nnn) mod 4096 (spec/42_control_flow.md R168). -/
def indexedTarget (b : Byte) (nnn : Imm12) : Word := BitVec.ofNat 16 ((b.toNat + nnn.toNat) % 4096)

/-- I advanced past the registers V[0], ..., V[x]: I + x + 1 modulo 65536 (R185, R186). -/
def advancePast (a : Word) (x : Reg) : Word := BitVec.ofNat 16 (a.toNat + x.val + 1)

/-- Hundreds, tens and units of a byte (R183). -/
def bcdDigits (b : Byte) : List Byte :=
  [BitVec.ofNat 8 (b.toNat / 100), BitVec.ofNat 8 (b.toNat / 10 % 10), BitVec.ofNat 8 (b.toNat % 10)]

/-- A conditional skip: pc advances by another 2 when the condition holds (spec/42_control_flow.md R167). -/
def State.skipIf (s : State) (c : Bool) : State := if c then s.setPc (s.pc + 2) else s

/-- The registers V[0], ..., V[x] as the bytes a register dump stores (R185). -/
def State.regBytes (s : State) (x : Reg) : List Byte := (regsUpTo x).map s.getV

/-- The n bytes of a sprite, read from I on; 0x00 out of bounds (spec/44_draw.md R201). -/
def State.spriteRows (s : State) (n : Nat) : List Byte := (List.range n).map fun r => s.readByte (s.dataBase + r)

end Sys2Proof.Machine
end

