-- ==== Sys2Proof/Machine/AddressMemory.lean ====
section
/-! DEFINITION. Address register and memory (spec/43_memory_address.md R180 to R186). -/

namespace Sys2Proof.Machine

/-- LD I,nnn (R180). -/
def execLdINnn (nnn : Imm12) (s : State) : Result := .next (s.setI (zext12 nnn))

/-- ADD I,Vx: modulo 65536, no flag, no mask (R181). -/
def execAddIVx (x : Reg) (s : State) : Result := .next (s.setI (s.i + zext8 (s.getV x)))

/-- LD F,Vx (R182). -/
def execLdFVx (x : Reg) (s : State) : Result := .next (s.setI (glyphAddress (s.getV x)))

/-- LD B,Vx: hundreds, tens and units at I, I+1, I+2; I unchanged (R183). -/
def execLdBVx (x : Reg) (s : State) : Result := .next (s.writeBytes s.dataBase (bcdDigits (s.getV x)))

/-- LD [I],Vx: V[0..x] stored from I on; I advances by x + 1 (R185). -/
def execLdMemIVx (x : Reg) (s : State) : Result :=
  .next ((s.writeBytes s.dataBase (s.regBytes x)).setI (advancePast s.i x))

/-- LD Vx,[I]: V[0..x] loaded from I on; I advances by x + 1 (R186). -/
def execLdVxMemI (x : Reg) (s : State) : Result :=
  .next ((s.loadRegs s.dataBase (regsUpTo x)).setI (advancePast s.i x))

end Sys2Proof.Machine
end

