-- ==== Sys2Proof/Machine/Flags.lean ====
section
/-! DEFINITION. The flag values that six instructions write to VF (spec/10_state.md R32), always 0x00 or 0x01, and the
8-bit results beside them (spec/41_arith_logic.md R146). -/

namespace Sys2Proof.Machine

/-- A flag as the byte VF holds. -/
def flagByte (f : Bool) : Byte := if f then 0x01#8 else 0x00#8

/-- trunc8(a + b) (R146). -/
def sum8 (a b : Byte) : Byte := BitVec.ofNat 8 (a.toNat + b.toNat)

/-- trunc8(a - b), the mathematical modulo (R9, R146). -/
def diff8 (a b : Byte) : Byte := BitVec.ofInt 8 ((a.toNat : Int) - (b.toNat : Int))

/-- Carry: the unsigned sum exceeds 255 (R147). -/
def carry (a b : Byte) : Bool := decide (255 < a.toNat + b.toNat)

/-- Not borrow of a - b: 0 iff b > a (R148, R150). -/
def noBorrow (a b : Byte) : Bool := !decide (a.toNat < b.toNat)

/-- The byte shifted right by one, filled with 0 (R149). -/
def shiftRight1 (a : Byte) : Byte := BitVec.ofNat 8 (a.toNat / 2)

/-- The bit a right shift loses: bit 0 (R149). -/
def lowBit (a : Byte) : Bool := a.getLsbD 0

/-- The byte shifted left by one, filled with 0 (R151). -/
def shiftLeft1 (a : Byte) : Byte := BitVec.ofNat 8 (a.toNat * 2)

/-- The bit a left shift loses: bit 7 (R151). -/
def highBit (a : Byte) : Bool := a.getLsbD 7

/-- Write a result to V[x] and then a flag to VF, so that with x = 15 the flag is what remains (R125). -/
def State.setResultAndFlag (s : State) (x : Reg) (r : Byte) (f : Bool) : State := (s.setV x r).setV vf (flagByte f)

end Sys2Proof.Machine
end

