-- ==== Sys2Proof/Machine/ArithLogic.lean ====
section
/-! DEFINITION. Register load, arithmetic, logic and random (spec/41_arith_logic.md R140 to R152). pc is already advanced
(R122). Operands are read first, the result is written to V[x], the flag to VF last (R125). -/

namespace Sys2Proof.Machine

/-- LD Vx,kk (R140). -/
def execLdVxKk (x : Reg) (kk : Imm8) (s : State) : Result := .next (s.setV x kk)

/-- ADD Vx,kk: no flag (R141). -/
def execAddVxKk (x : Reg) (kk : Imm8) (s : State) : Result := .next (s.setV x (sum8 (s.getV x) kk))

/-- LD Vx,Vy (R142). -/
def execLdVxVy (x y : Reg) (s : State) : Result := .next (s.setV x (s.getV y))

/-- OR Vx,Vy: no flag (R143). -/
def execOrVxVy (x y : Reg) (s : State) : Result := .next (s.setV x (s.getV x ||| s.getV y))

/-- AND Vx,Vy: no flag (R144). -/
def execAndVxVy (x y : Reg) (s : State) : Result := .next (s.setV x (s.getV x &&& s.getV y))

/-- XOR Vx,Vy: no flag (R145). -/
def execXorVxVy (x y : Reg) (s : State) : Result := .next (s.setV x (s.getV x ^^^ s.getV y))

/-- ADD Vx,Vy: VF = carry (R147). -/
def execAddVxVy (x y : Reg) (s : State) : Result :=
  .next (s.setResultAndFlag x (sum8 (s.getV x) (s.getV y)) (carry (s.getV x) (s.getV y)))

/-- SUB Vx,Vy: VF = not borrow of V[x] - V[y] (R148). -/
def execSubVxVy (x y : Reg) (s : State) : Result :=
  .next (s.setResultAndFlag x (diff8 (s.getV x) (s.getV y)) (noBorrow (s.getV x) (s.getV y)))

/-- SHR Vx: VF = the bit shifted out; V[y] is ignored (R149). -/
def execShrVx (x : Reg) (s : State) : Result :=
  .next (s.setResultAndFlag x (shiftRight1 (s.getV x)) (lowBit (s.getV x)))

/-- SUBN Vx,Vy: VF = not borrow of V[y] - V[x] (R150). -/
def execSubnVxVy (x y : Reg) (s : State) : Result :=
  .next (s.setResultAndFlag x (diff8 (s.getV y) (s.getV x)) (noBorrow (s.getV y) (s.getV x)))

/-- SHL Vx: VF = the bit shifted out; V[y] is ignored (R151). -/
def execShlVx (x : Reg) (s : State) : Result :=
  .next (s.setResultAndFlag x (shiftLeft1 (s.getV x)) (highBit (s.getV x)))

/-- RND Vx,kk with the Step input `rnd` given: V[x] <- rnd AND kk (R152). -/
def rndWith (rnd : Byte) (x : Reg) (kk : Imm8) (s : State) : State := s.setV x (rnd &&& kk)

/-- RND Vx,kk: `rnd` is the next free byte, Config.rnd at the counter, which then advances (R152, D15).
DESIGN CHOICE, safe: assumption log 1. -/
def execRndVxKk (x : Reg) (kk : Imm8) (s : State) : Result :=
  .next (rndWith (Config.rnd s.draws) x kk s.nextDraw)

end Sys2Proof.Machine
end

