-- ==== Sys2Proof/Machine/ControlFlow.lean ====
section
/-! DEFINITION. Control flow and the call stack (spec/42_control_flow.md R160 to R168). pc is already advanced: it is the
address of the instruction after this one (R122). -/

namespace Sys2Proof.Machine

/-- JP nnn (R160). -/
def execJpNnn (nnn : Imm12) (s : State) : Result := .next (s.setPc (zext12 nnn))

/-- CALL nnn: push the advanced pc (dropped, with STACK_OVERFLOW, at depth 16) and jump in both cases (R161). -/
def execCallNnn (nnn : Imm12) (s : State) : Result := .next ((s.push s.pc).setPc (zext12 nnn))

/-- RET: pop into pc; on an empty stack nothing but STACK_UNDERFLOW (R162). -/
def execRet (s : State) : Result := .next s.popToPc

/-- SE Vx,kk (R163). -/
def execSeVxKk (x : Reg) (kk : Imm8) (s : State) : Result := .next (s.skipIf (s.getV x == kk))

/-- SNE Vx,kk (R164). -/
def execSneVxKk (x : Reg) (kk : Imm8) (s : State) : Result := .next (s.skipIf (s.getV x != kk))

/-- SE Vx,Vy (R165). -/
def execSeVxVy (x y : Reg) (s : State) : Result := .next (s.skipIf (s.getV x == s.getV y))

/-- SNE Vx,Vy (R166). -/
def execSneVxVy (x y : Reg) (s : State) : Result := .next (s.skipIf (s.getV x != s.getV y))

/-- JP V0,nnn: the index is always V[0]; the target is masked to 12 bits (R168). -/
def execJpV0Nnn (nnn : Imm12) (s : State) : Result := .next (s.setPc (indexedTarget (s.getV v0) nnn))

end Sys2Proof.Machine
end

