-- ==== Sys2Proof/Machine/Draw.lean ====
section
/-! DEFINITION. The framebuffer instructions and the collision detector (spec/44_draw.md R200 to R203). -/

namespace Sys2Proof.Machine

/-- The draw engine's working pair: the pixels so far and whether a pixel has been turned off (R203: "only ever raised,
never lowered, during the blit"). -/
abbrev Blit := Framebuffer × Bool

/-- One set sprite bit at row `py`, column `px`: clipped off the grid, else the pixel toggles and a pixel turned off is a
collision (R201, R202). -/
def plot (d : Blit) (py px : Nat) : Blit :=
  if py < 32 ∧ px < 64 then (d.1.set py px (!d.1.get py px), d.2 || d.1.get py px) else d

/-- The pixels of one sprite row, columns `c`, `c - 1`, ..., counted down so that column `8 - c` is drawn first: bit 7 of
the byte is the leftmost (R201). -/
def plotRow (b : Byte) (py x0 : Nat) : Nat → Blit → Blit
  | 0, d => d
  | c + 1, d => plotRow b py x0 c (if b.getLsbD c then plot d py (x0 + (7 - c)) else d)

/-- The sprite's rows from row `py` of the grid downward (R201). -/
def plotRows (x0 : Nat) : List Byte → Nat → Blit → Blit
  | [], _, d => d
  | b :: bs, py, d => plotRows x0 bs (py + 1) (plotRow b py x0 8 d)

/-- CLS (R200). -/
def execCls (s : State) : Result := .next (s.setFb Framebuffer.clear)

/-- DRW Vx,Vy,n: V[x] and V[y] are read before VF is written; n sprite bytes from I; VF = collision (R201, R203). -/
def execDrwVxVyN (x y : Reg) (n : Imm4) (s : State) : Result :=
  let drawn := plotRows (s.getV x).toNat (s.spriteRows n.toNat) (s.getV y).toNat (s.fb, false)
  .next (((s.noteAccesses s.dataBase n.toNat).setFb drawn.1).setV vf (flagByte drawn.2))

end Sys2Proof.Machine
end

