-- ==== Sys2Proof/Machine/TimerInput.lean ====
section
/-! DEFINITION. Timer and keyboard instructions (spec/45_timer_input.md R220 to R225). -/

namespace Sys2Proof.Machine

/-- LD Vx,DT (R220). -/
def execLdVxDT (x : Reg) (s : State) : Result := .next (s.setV x s.dt)

/-- LD DT,Vx (R221). -/
def execLdDTVx (x : Reg) (s : State) : Result := .next (s.setDt (s.getV x))

/-- LD ST,Vx (R222). -/
def execLdSTVx (x : Reg) (s : State) : Result := .next (s.setSt (s.getV x))

/-- SKP Vx: skip if the key V[x] is down; a value above 15 is no key (R223, R230). -/
def execSkpVx (x : Reg) (s : State) : Result := .next (s.skipIf (s.keyDownAt (s.getV x).toNat))

/-- SKNP Vx: the complement of SKP (R224, R230). -/
def execSknpVx (x : Reg) (s : State) : Result := .next (s.skipIf (!s.keyDownAt (s.getV x).toNat))

/-- LD Vx,K: rewind pc by 2 while no key is down; else the lowest pressed index goes to V[x] (R225). -/
def execLdVxK (x : Reg) (s : State) : Result :=
  match s.lowestKey with
  | none => .next (s.setPc (s.pc - 2))
  | some k => .next (s.setV x (BitVec.ofNat 8 k.val))

end Sys2Proof.Machine
end

