-- ==== Sys2Proof/Machine/Step.lean ====
section
/-! DEFINITION. Step (spec/40_step_decode_dispatch.md R120): fetch, advance pc, decode the word, run the instruction or the
silent no-op of an unknown opcode. Everything it does is in Ops.lean, Decode.lean and the meanings. -/

namespace Sys2Proof.Machine

/-- One Step. Its `rnd` input is the next free byte (log 1), its `diag` result the field `diag` of the next state (log 2). -/
def step (s : State) : Host.Outcome State Fault Refusal :=
  match decode s.fetchWord with
  | .instr i => exec i s.afterFetch
  | .reject _ => unknownOpcode s.afterFetch

/-- The state with the table's word `w` placed where step fetches its next instruction. It stands for the host's
LoadProgram (R282; log 5). -/
def State.withFetchWord (s : State) (nbits w : Nat) : State := s.placeWord (wordOfTable nbits w)

end Sys2Proof.Machine
end

