-- ==== Sys2Proof/Machine/HostOps.lean ====
section
/-! DEFINITION. The host operations of spec/00_scope.md R3 beside Step: Reset (R280), LoadProgram (R282), TickTimers (R226),
KeyDown (R227), KeyUp (R228), ReadFramebuffer (R204) and introspection (R260); and all of them as the labels of one
transition function, so that a claim can speak of every interleaving (R14). -/

namespace Sys2Proof.Machine

/-- The state after Reset for a given FONT, the parameter of R7 and R41: State.reset but for the bytes of FONT. -/
def State.resetWith (font : Font) : State := { State.reset with mem := Memory.ofFont font }

/-- Reset (R280): from any state, every element at its reset value (R43). The counter of free random bytes is no element
of the machine's state and runs on, so that no claim can see one draw twice (log 1). -/
def State.resetOp (font : Font) (s : State) : State := { State.resetWith font with draws := s.draws }

/-- LoadProgram (R282): an image of more than 3583 bytes is a LoadError (none); else Reset, then the bytes from 0x200. -/
def State.loadProgram (font : Font) (s : State) (image : List Byte) : Option State :=
  if Config.maxImage < image.length then none
  else some ((s.resetOp font).setMem ((Memory.ofFont font).putAll Config.progBase image))

/-- One tick of a timer: down by one, floored at 0 (R226). -/
def tick (b : Byte) : Byte := if b = 0x00#8 then b else b - 1

/-- TickTimers (R226). -/
def State.tickTimers (s : State) : State := (s.setDt (tick s.dt)).setSt (tick s.st)

/-- A key code in range, as an index (R227, R228): codes outside 0..15 are ignored. -/
def keyOfCode (code : Int) : Option KeyIndex :=
  if h : 0 ≤ code ∧ code ≤ 15 then some ⟨code.toNat, by omega⟩ else none

/-- Set or clear the key a code names; nothing for a code out of range. -/
def State.setKeyCode (s : State) (code : Int) (p : Bool) : State :=
  match keyOfCode code with
  | some k => s.setKey k p
  | none => s

/-- KeyDown (R227). -/
def State.keyDown (s : State) (code : Int) : State := s.setKeyCode code true

/-- KeyUp (R228). -/
def State.keyUp (s : State) (code : Int) : State := s.setKeyCode code false

/-- What introspection shows (R260, R77): pc, V, I, the live stack entries bottom to top with their number, DT, ST, all
4096 bytes of memory, the keys. -/
structure View where
  pc : Word
  v : List Byte
  i : Word
  stack : List Word
  depth : Nat
  dt : Byte
  st : Byte
  mem : List Byte
  key : List Bool
  deriving DecidableEq, Repr

/-- Introspection (R260). -/
def State.view (s : State) : View where
  pc := s.pc
  v := s.v.toList
  i := s.i
  stack := s.stack.reverse
  depth := s.depth
  dt := s.dt
  st := s.st
  mem := (List.range Config.memSize).map s.readByte
  key := s.key.toList

/-- ReadFramebuffer (R204): the 64x32 grid, row by row from the top. -/
def State.readFramebuffer (s : State) : List (List Bool) := s.fb.toList.map Vector.toList

/-- The host operations, the labels of the transition system (R3, R14). -/
inductive Label where
  | reset
  | loadProgram (image : List Byte)
  | step
  | tickTimers
  | keyDown (code : Int)
  | keyUp (code : Int)
  | readFramebuffer
  | introspect
  deriving DecidableEq, Repr

/-- What an operation returns to the host (R3). -/
inductive Reply where
  | none
  | ok
  | loadError
  | diag (d : Diag)
  | grid (rows : List (List Bool))
  | view (w : View)
  deriving DecidableEq, Repr

/-- The state an operation leaves and what it returns. -/
structure Done where
  state : State
  reply : Reply
  deriving DecidableEq, Repr

/-- One host operation, one atomic transition (R3). `font` is the machine's parameter FONT (R7), read by Reset and
LoadProgram alone. -/
def perform (font : Font) (l : Label) (s : State) : Host.Outcome Done Fault Refusal :=
  match l with
  | .reset => .next ⟨s.resetOp font, .none⟩
  | .loadProgram image =>
    match s.loadProgram font image with
    | some t => .next ⟨t, .ok⟩
    | none => .next ⟨s, .loadError⟩
  | .step =>
    match step s with
    | .next t => .next ⟨t, .diag t.diag⟩
    | .fault r => .fault r
    | .refused r => .refused r
  | .tickTimers => .next ⟨s.tickTimers, .none⟩
  | .keyDown code => .next ⟨s.keyDown code, .none⟩
  | .keyUp code => .next ⟨s.keyUp code, .none⟩
  | .readFramebuffer => .next ⟨s, .grid s.readFramebuffer⟩
  | .introspect => .next ⟨s, .view s.view⟩

/-- A schedule of host operations, in order (R14), on a machine with the given FONT. -/
def schedule (font : Font) : List Label → State → Host.Outcome State Fault Refusal
  | [], s => .next s
  | l :: ls, s =>
    match perform font l s with
    | .next d => schedule font ls d.state
    | .fault r => .fault r
    | .refused r => .refused r

end Sys2Proof.Machine
end

