-- ==== Sys2Proof/Safety.lean ====
section
/-! DEFINITION. What claims are stated in terms of: the invariant of the machine, a clean Step (no abnormal condition,
spec/70_reset_and_hazards.md R289), the data bytes of an instruction, and the customary end of a program (spec/00_scope.md R19). -/

namespace Sys2Proof.Machine

/-- The invariant: the call stack holds at most 16 entries (R35) and the memory is in its canonical form. Every other
bound of the state is in its types. -/
def State.Inv (s : State) : Prop := s.stack.length ≤ 16 ∧ Memory.wf s.mem = true

/-- How many data bytes from I on an instruction reads or writes (spec/20_memory.md R68). -/
def dataBytes : Instr → Nat
  | .ldBVx _ => 3
  | .ldMemIVx x | .ldVxMemI x => x.val + 1
  | .drwVxVyN _ _ n => n.toNat
  | _ => 0

/-- A Step that answers a next state and reports no abnormal condition: diag = 0000 (R251, R289). -/
def CleanStep (s : State) : Prop := ∃ t, step s = .next t ∧ t.diag = Diag.none

/-- The customary end of a program: pc stands at a jump to itself (R19, decision D25). -/
def State.AtJumpToSelf (s : State) : Prop := decode s.fetchWord = .instr (.jpNnn (s.pc.setWidth 12)) ∧ s.pc.toNat < 4096

end Sys2Proof.Machine
end

