-- ==== Sys2Proof/WellFormed.lean ====
section
/-! DEFINITION. Well-formedness of instructions as they are WRITTEN (spec/30_encoding.md R101, R102): an assembler line is
a mnemonic and a list of operands whose register and number operands are unbounded naturals; it is well formed when it
names one of the 34 instructions and every number is in its range ("`nnn` must be 0..0xFFF, `kk` 0..0xFF, `n` 0..15,
otherwise the line is an error"). An `Instr` is always in range, by its types; `Instr.toLine` writes it out again.
The mnemonics are the spec's (R101, decision D19) and carry no meaning of their own. -/

namespace Sys2Proof

/-- The mnemonics of R96. -/
inductive Mnemonic where
  | CLS | RET | JP | CALL | SE | SNE | LD | ADD | OR | AND | XOR | SUB | SHR | SUBN | SHL | RND | DRW | SKP | SKNP
  deriving DecidableEq, Repr

/-- The operand spellings of R101: a register, a number, and the fixed names I, DT, ST, K, F, B, [I]. -/
inductive Operand where
  | V (index : Nat)
  | num (value : Nat)
  | I | DT | ST | K | F | B | memI
  deriving DecidableEq, Repr

/-- One line of assembly. -/
structure Line where
  mnemonic : Mnemonic
  operands : List Operand
  deriving DecidableEq, Repr

/-- A register index in range: V0 to VF. -/
def checkReg (x : Nat) : Option Reg := if h : x < 16 then some ⟨x, h⟩ else none

/-- `nnn` in range: 0 to 0xFFF. -/
def checkNnn (v : Nat) : Option Imm12 := if v ≤ 0xFFF then some (BitVec.ofNat 12 v) else none

/-- `kk` in range: 0 to 0xFF. -/
def checkKk (v : Nat) : Option Imm8 := if v ≤ 0xFF then some (BitVec.ofNat 8 v) else none

/-- `n` in range: 0 to 15. -/
def checkN (v : Nat) : Option Imm4 := if v ≤ 15 then some (BitVec.ofNat 4 v) else none

def withReg (f : Reg → Instr) (x : Nat) : Option Instr := (checkReg x).map f

def withNnn (f : Imm12 → Instr) (v : Nat) : Option Instr := (checkNnn v).map f

def withRegKk (f : Reg → Imm8 → Instr) (x v : Nat) : Option Instr :=
  (checkReg x).bind fun x => (checkKk v).map (f x)

def withRegReg (f : Reg → Reg → Instr) (x y : Nat) : Option Instr :=
  (checkReg x).bind fun x => (checkReg y).map (f x)

/-- The instruction a line stands for; none is the assembler's error (R101: destination first, SHR and SHL take one
operand). -/
def Line.toInstr? (l : Line) : Option Instr :=
  match l.mnemonic, l.operands with
  | .CLS, [] => some .cls
  | .RET, [] => some .ret
  | .JP, [.num v] => withNnn .jpNnn v
  | .JP, [.V 0, .num v] => withNnn .jpV0Nnn v
  | .CALL, [.num v] => withNnn .callNnn v
  | .SE, [.V x, .num v] => withRegKk .seVxKk x v
  | .SE, [.V x, .V y] => withRegReg .seVxVy x y
  | .SNE, [.V x, .num v] => withRegKk .sneVxKk x v
  | .SNE, [.V x, .V y] => withRegReg .sneVxVy x y
  | .LD, [.V x, .num v] => withRegKk .ldVxKk x v
  | .LD, [.V x, .V y] => withRegReg .ldVxVy x y
  | .LD, [.I, .num v] => withNnn .ldINnn v
  | .LD, [.V x, .DT] => withReg .ldVxDT x
  | .LD, [.V x, .K] => withReg .ldVxK x
  | .LD, [.DT, .V x] => withReg .ldDTVx x
  | .LD, [.ST, .V x] => withReg .ldSTVx x
  | .LD, [.F, .V x] => withReg .ldFVx x
  | .LD, [.B, .V x] => withReg .ldBVx x
  | .LD, [.memI, .V x] => withReg .ldMemIVx x
  | .LD, [.V x, .memI] => withReg .ldVxMemI x
  | .ADD, [.V x, .num v] => withRegKk .addVxKk x v
  | .ADD, [.V x, .V y] => withRegReg .addVxVy x y
  | .ADD, [.I, .V x] => withReg .addIVx x
  | .OR, [.V x, .V y] => withRegReg .orVxVy x y
  | .AND, [.V x, .V y] => withRegReg .andVxVy x y
  | .XOR, [.V x, .V y] => withRegReg .xorVxVy x y
  | .SUB, [.V x, .V y] => withRegReg .subVxVy x y
  | .SUBN, [.V x, .V y] => withRegReg .subnVxVy x y
  | .SHR, [.V x] => withReg .shrVx x
  | .SHL, [.V x] => withReg .shlVx x
  | .RND, [.V x, .num v] => withRegKk .rndVxKk x v
  | .DRW, [.V x, .V y, .num v] =>
    (checkReg x).bind fun x => (checkReg y).bind fun y => (checkN v).map (.drwVxVyN x y)
  | .SKP, [.V x] => withReg .skpVx x
  | .SKNP, [.V x] => withReg .sknpVx x
  | _, _ => none

/-- A line is well formed when it stands for an instruction. -/
def Line.wellFormed (l : Line) : Bool := l.toInstr?.isSome

/-- The line an instruction is written as. -/
def Instr.toLine : Instr → Line
  | .cls => ⟨.CLS, []⟩
  | .ret => ⟨.RET, []⟩
  | .jpNnn nnn => ⟨.JP, [.num nnn.toNat]⟩
  | .callNnn nnn => ⟨.CALL, [.num nnn.toNat]⟩
  | .seVxKk x kk => ⟨.SE, [.V x, .num kk.toNat]⟩
  | .sneVxKk x kk => ⟨.SNE, [.V x, .num kk.toNat]⟩
  | .seVxVy x y => ⟨.SE, [.V x, .V y]⟩
  | .ldVxKk x kk => ⟨.LD, [.V x, .num kk.toNat]⟩
  | .addVxKk x kk => ⟨.ADD, [.V x, .num kk.toNat]⟩
  | .ldVxVy x y => ⟨.LD, [.V x, .V y]⟩
  | .orVxVy x y => ⟨.OR, [.V x, .V y]⟩
  | .andVxVy x y => ⟨.AND, [.V x, .V y]⟩
  | .xorVxVy x y => ⟨.XOR, [.V x, .V y]⟩
  | .addVxVy x y => ⟨.ADD, [.V x, .V y]⟩
  | .subVxVy x y => ⟨.SUB, [.V x, .V y]⟩
  | .shrVx x => ⟨.SHR, [.V x]⟩
  | .subnVxVy x y => ⟨.SUBN, [.V x, .V y]⟩
  | .shlVx x => ⟨.SHL, [.V x]⟩
  | .sneVxVy x y => ⟨.SNE, [.V x, .V y]⟩
  | .ldINnn nnn => ⟨.LD, [.I, .num nnn.toNat]⟩
  | .jpV0Nnn nnn => ⟨.JP, [.V 0, .num nnn.toNat]⟩
  | .rndVxKk x kk => ⟨.RND, [.V x, .num kk.toNat]⟩
  | .drwVxVyN x y n => ⟨.DRW, [.V x, .V y, .num n.toNat]⟩
  | .skpVx x => ⟨.SKP, [.V x]⟩
  | .sknpVx x => ⟨.SKNP, [.V x]⟩
  | .ldVxDT x => ⟨.LD, [.V x, .DT]⟩
  | .ldVxK x => ⟨.LD, [.V x, .K]⟩
  | .ldDTVx x => ⟨.LD, [.DT, .V x]⟩
  | .ldSTVx x => ⟨.LD, [.ST, .V x]⟩
  | .addIVx x => ⟨.ADD, [.I, .V x]⟩
  | .ldFVx x => ⟨.LD, [.F, .V x]⟩
  | .ldBVx x => ⟨.LD, [.B, .V x]⟩
  | .ldMemIVx x => ⟨.LD, [.memI, .V x]⟩
  | .ldVxMemI x => ⟨.LD, [.V x, .memI]⟩

/-- An instruction is well formed when the line it is written as stands for it. -/
def Instr.wellFormed (i : Instr) : Bool := i.toLine.toInstr? == some i

end Sys2Proof
end

