-- ==== Sys2Proof/Certificates/Slice0/Obligations.lean ====
section
/-! DEFINITION. The statements for the provers, with the few words they are written in. In a statement about exec the
program counter of the state is the already advanced one (spec/40_step_decode_dispatch.md R122); `diag` and `draws` are the
model's own fields (assumption log 2 and 1). Basis 'derived' marks a statement that rests on a decision (D n), on a
general-knowledge passage (G n) or on an inference of the spec; the docstring names it. -/

namespace Sys2Proof.Machine

/-- The parts a state is made of, as claims speak of them. -/
inductive Part where
  | v | i | pc | stack | dt | st | key | fb | mem | diag | draws
  deriving DecidableEq, Repr

/-- One part reads the same in both states: registers, keys, pixels and memory through the model's read of one cell. -/
def Same (s t : State) : Part → Prop
  | .v => ∀ j : Reg, t.getV j = s.getV j
  | .i => t.i = s.i
  | .pc => t.pc = s.pc
  | .stack => t.stack = s.stack
  | .dt => t.dt = s.dt
  | .st => t.st = s.st
  | .key => ∀ n : Nat, t.keyDownAt n = s.keyDownAt n
  | .fb => ∀ r c : Nat, t.pixel r c = s.pixel r c
  | .mem => ∀ a : Nat, t.readByte a = s.readByte a
  | .diag => t.diag = s.diag
  | .draws => t.draws = s.draws

/-- The frame: every part outside the list reads the same (spec/00_scope.md R11). -/
def OnlyChanges (ps : List Part) (s t : State) : Prop := ∀ p : Part, p ∉ ps → Same s t p

/-- x = w[11:8], as a number (R91). -/
def wordX (w : Word) : Reg := ⟨w.toNat / 256 % 16, Nat.mod_lt _ (by decide)⟩

/-- y = w[7:4], as a number (R91). -/
def wordY (w : Word) : Reg := ⟨w.toNat / 16 % 16, Nat.mod_lt _ (by decide)⟩

/-- n = w[3:0] (R91). -/
def wordN (w : Word) : Imm4 := BitVec.ofNat 4 w.toNat

/-- kk = w[7:0] (R91). -/
def wordKk (w : Word) : Imm8 := BitVec.ofNat 8 w.toNat

/-- nnn = w[11:0] (R91). -/
def wordNnn (w : Word) : Imm12 := BitVec.ofNat 12 w.toNat

/-- One row of the opcode map: mask, match, and the instruction with its fields (R96). -/
structure OpcodeRow where
  mask : Word
  mtch : Word
  build : Word → Instr

/-- Rows 1 to 19 of R96. -/
def opcodeRowsLow : List OpcodeRow :=
  [⟨0xF0FF, 0x00E0, fun _ => .cls⟩, ⟨0xF0FF, 0x00EE, fun _ => .ret⟩,
   ⟨0xF000, 0x1000, fun w => .jpNnn (wordNnn w)⟩, ⟨0xF000, 0x2000, fun w => .callNnn (wordNnn w)⟩,
   ⟨0xF000, 0x3000, fun w => .seVxKk (wordX w) (wordKk w)⟩, ⟨0xF000, 0x4000, fun w => .sneVxKk (wordX w) (wordKk w)⟩,
   ⟨0xF000, 0x5000, fun w => .seVxVy (wordX w) (wordY w)⟩, ⟨0xF000, 0x6000, fun w => .ldVxKk (wordX w) (wordKk w)⟩,
   ⟨0xF000, 0x7000, fun w => .addVxKk (wordX w) (wordKk w)⟩] ++
  [⟨0xF00F, 0x8000, fun w => .ldVxVy (wordX w) (wordY w)⟩, ⟨0xF00F, 0x8001, fun w => .orVxVy (wordX w) (wordY w)⟩,
   ⟨0xF00F, 0x8002, fun w => .andVxVy (wordX w) (wordY w)⟩, ⟨0xF00F, 0x8003, fun w => .xorVxVy (wordX w) (wordY w)⟩,
   ⟨0xF00F, 0x8004, fun w => .addVxVy (wordX w) (wordY w)⟩, ⟨0xF00F, 0x8005, fun w => .subVxVy (wordX w) (wordY w)⟩,
   ⟨0xF00F, 0x8006, fun w => .shrVx (wordX w)⟩, ⟨0xF00F, 0x8007, fun w => .subnVxVy (wordX w) (wordY w)⟩,
   ⟨0xF00F, 0x800E, fun w => .shlVx (wordX w)⟩, ⟨0xF000, 0x9000, fun w => .sneVxVy (wordX w) (wordY w)⟩]

/-- Rows 20 to 34 of R96. -/
def opcodeRowsHigh : List OpcodeRow :=
  [⟨0xF000, 0xA000, fun w => .ldINnn (wordNnn w)⟩, ⟨0xF000, 0xB000, fun w => .jpV0Nnn (wordNnn w)⟩,
   ⟨0xF000, 0xC000, fun w => .rndVxKk (wordX w) (wordKk w)⟩,
   ⟨0xF000, 0xD000, fun w => .drwVxVyN (wordX w) (wordY w) (wordN w)⟩,
   ⟨0xF0FF, 0xE09E, fun w => .skpVx (wordX w)⟩, ⟨0xF0FF, 0xE0A1, fun w => .sknpVx (wordX w)⟩] ++
  [⟨0xF0FF, 0xF007, fun w => .ldVxDT (wordX w)⟩, ⟨0xF0FF, 0xF00A, fun w => .ldVxK (wordX w)⟩,
   ⟨0xF0FF, 0xF015, fun w => .ldDTVx (wordX w)⟩, ⟨0xF0FF, 0xF018, fun w => .ldSTVx (wordX w)⟩,
   ⟨0xF0FF, 0xF01E, fun w => .addIVx (wordX w)⟩, ⟨0xF0FF, 0xF029, fun w => .ldFVx (wordX w)⟩,
   ⟨0xF0FF, 0xF033, fun w => .ldBVx (wordX w)⟩, ⟨0xF0FF, 0xF055, fun w => .ldMemIVx (wordX w)⟩,
   ⟨0xF0FF, 0xF065, fun w => .ldVxMemI (wordX w)⟩]

/-- The opcode map (R96). -/
def opcodeRows : List OpcodeRow := opcodeRowsLow ++ opcodeRowsHigh

/-- The canonical word of an instruction that `w` decodes to: the ignored bits, and the unused y of SHR and SHL, zero (R99). -/
def canonicalWord (i : Instr) (w : Word) : Word :=
  match i with
  | .cls | .ret => w &&& 0xF0FF#16
  | .seVxVy _ _ | .sneVxVy _ _ => w &&& 0xFFF0#16
  | .shrVx _ | .shlVx _ => w &&& 0xFF0F#16
  | _ => w

/-- In every state the instruction completes, V[x] becomes the given value, and nothing else changes. -/
def SetsV (i : Instr) (x : Reg) (value : State → Byte) : Prop :=
  ∀ s : State, ∃ t, exec i s = .next t ∧ t.getV x = value s ∧ (∀ j, j ≠ x → t.getV j = s.getV j) ∧ OnlyChanges [.v] s t

/-- In every state the instruction completes, the flag goes to V[15], the result to V[x] where x is not 15 (the flag is
written last), and nothing else changes. Result and flag are given as numbers. -/
def SetsVAndFlag (i : Instr) (x : Reg) (result flag : State → Int) : Prop :=
  ∀ s : State, ∃ t, exec i s = .next t ∧ ((t.getV 15).toNat : Int) = flag s ∧ (x ≠ 15 → ((t.getV x).toNat : Int) = result s) ∧
    (∀ j, j ≠ x → j ≠ 15 → t.getV j = s.getV j) ∧ OnlyChanges [.v] s t

/-- In every state the instruction completes and skips the next one exactly when the condition holds. -/
def SkipsWhen (i : Instr) (c : State → Prop) : Prop :=
  ∀ s : State, ∃ t, exec i s = .next t ∧ (c s → t.pc = s.pc + 2) ∧ (¬ c s → t.pc = s.pc) ∧ OnlyChanges [.pc] s t

/-- The sprite bit DRW puts on row r, column c: row r - y0 of the n bytes at I, bit 7 leftmost (R201). -/
def spriteBit (s : State) (n x0 y0 r c : Nat) : Bool :=
  decide (y0 ≤ r ∧ r < y0 + n ∧ x0 ≤ c ∧ c < x0 + 8) && (s.readByte (s.i.toNat + (r - y0))).getLsbD (7 - (c - x0))

/-- DRW turns a pixel off: some sprite bit falls, inside the grid, on a pixel that is on (R203). -/
def Collides (s : State) (n x0 y0 : Nat) : Prop :=
  ∃ r c, r < 32 ∧ c < 64 ∧ spriteBit s n x0 y0 r c = true ∧ s.pixel r c = true

/-- Some sprite bit falls inside the grid. -/
def DrawsSomething (s : State) (n x0 y0 : Nat) : Prop :=
  ∃ r c, r < 32 ∧ c < 64 ∧ spriteBit s n x0 y0 r c = true

/-- The registers the access map (R42) lets an instruction write: its named destination, V[0..x] for LD Vx,[I], and V[15]
for the six flag-writing instructions (R32). -/
def mayWriteV : Instr → Reg → Prop
  | .ldVxKk x _, j | .addVxKk x _, j | .ldVxVy x _, j | .orVxVy x _, j | .andVxVy x _, j | .xorVxVy x _, j
  | .rndVxKk x _, j | .ldVxDT x, j | .ldVxK x, j => j = x
  | .addVxVy x _, j | .subVxVy x _, j | .shrVx x, j | .subnVxVy x _, j | .shlVx x, j => j = x ∨ j = 15
  | .drwVxVyN _ _ _, j => j = 15
  | .ldVxMemI x, j => j.val ≤ x.val
  | _, _ => False

/-- The program counter after a Step, by what was fetched (the table of R34); `none` is an unknown opcode. -/
def pcAfter (s : State) : Option Instr → Word
  | some (.jpNnn nnn) | some (.callNnn nnn) => nnn.setWidth 16
  | some .ret => s.stack.headD (s.pc + 2)
  | some (.jpV0Nnn nnn) => BitVec.ofNat 16 (((s.getV 0).toNat + nnn.toNat) % 4096)
  | some (.seVxKk x kk) => if s.getV x = kk then s.pc + 4 else s.pc + 2
  | some (.sneVxKk x kk) => if s.getV x ≠ kk then s.pc + 4 else s.pc + 2
  | some (.seVxVy x y) => if s.getV x = s.getV y then s.pc + 4 else s.pc + 2
  | some (.sneVxVy x y) => if s.getV x ≠ s.getV y then s.pc + 4 else s.pc + 2
  | some (.skpVx x) => if s.keyDownAt (s.getV x).toNat then s.pc + 4 else s.pc + 2
  | some (.sknpVx x) => if s.keyDownAt (s.getV x).toNat then s.pc + 2 else s.pc + 4
  | some (.ldVxK _) => if s.lowestKey = none then s.pc else s.pc + 2
  | _ => s.pc + 2

/-- The skip instructions (R163 to R167, R223, R224). -/
def IsSkip : Instr → Prop
  | .seVxKk _ _ | .sneVxKk _ _ | .seVxVy _ _ | .sneVxVy _ _ | .skpVx _ | .sknpVx _ => True
  | _ => False

/-- The instructions that read key[] (R128). -/
def ReadsKeys : Instr → Prop
  | .skpVx _ | .sknpVx _ | .ldVxK _ => True
  | _ => False

/-- The operations that set or clear key k: Reset, a successful LoadProgram (which resets), KeyDown(k), KeyUp(k) (R231). -/
def touchesKey (k : KeyIndex) : Label → Bool
  | .reset => true
  | .loadProgram image => decide (image.length ≤ 3583)
  | .keyDown code | .keyUp code => code == (k.val : Int)
  | _ => false

end Sys2Proof.Machine

open Sys2Proof Sys2Proof.Machine

/-! Encoding -/

/-- R104: decoding the word (or the two bytes) of an instruction gives the same instruction with the same operands, and
encoding what a word decodes to gives the canonical word. Rests on the spec's inference R104 and decisions D3, D19. -/
def Obligations.DecodeUndoesEncode : Prop :=
  (∀ i : Instr, decode (encode i) = .instr i) ∧
  (∀ (i : Instr) (rest : List Byte), decodeBytes (encodeBytes i ++ rest) = .ok (i, rest)) ∧
  (∀ (w : Word) (i : Instr), decode w = .instr i → encode i = canonicalWord i w)

/-- R94, R96: a word is the instruction of a row exactly when w AND mask = match, no word matches two rows, and every
decoded instruction is some row's. The numbering is the spec's general knowledge (G1), the compared bits its decision D3. -/
def Obligations.OpcodeMapSelectsExactly : Prop :=
  (∀ row ∈ opcodeRows, ∀ w : Word, decode w = .instr (row.build w) ↔ w &&& row.mask = row.mtch) ∧
  opcodeRows.Pairwise (fun p q => ∀ w : Word, ¬ (w &&& p.mask = p.mtch ∧ w &&& q.mask = q.mtch)) ∧
  (∀ (w : Word) (i : Instr), decode w = .instr i → ∃ row ∈ opcodeRows, i = row.build w)

/-- R98: the unknown opcodes are exactly the four groups, each rejected under its own name. -/
def Obligations.UnknownOpcodesAreFourGroups : Prop :=
  ∀ w : Word,
    (decode w = .reject .unknown0 ↔ w.toNat / 4096 = 0x0 ∧ w.toNat % 256 ∉ [0xE0, 0xEE]) ∧
    (decode w = .reject .unknown8 ↔ w.toNat / 4096 = 0x8 ∧ w.toNat % 16 ∈ [0x8, 0x9, 0xA, 0xB, 0xC, 0xD, 0xF]) ∧
    (decode w = .reject .unknownE ↔ w.toNat / 4096 = 0xE ∧ w.toNat % 256 ∉ [0x9E, 0xA1]) ∧
    (decode w = .reject .unknownF ↔
      w.toNat / 4096 = 0xF ∧ w.toNat % 256 ∉ [0x07, 0x0A, 0x15, 0x18, 0x1E, 0x29, 0x33, 0x55, 0x65]) ∧
    decode w ≠ .reject .truncated

/-- Words written out from the spec's encodings and test vectors (V-DEC-1 to V-DEC-16) decode to what they stand for. -/
def Obligations.WrittenOutWordsDecode : Prop :=
  decode 0x0AE0 = .instr .cls ∧ decode 0x00EE = .instr .ret ∧ decode 0x1234 = .instr (.jpNnn 0x234) ∧
  decode 0x2FFF = .instr (.callNnn 0xFFF) ∧ decode 0x512F = .instr (.seVxVy 1 2) ∧ decode 0x8124 = .instr (.addVxVy 1 2) ∧
  decode 0xA123 = .instr (.ldINnn 0x123) ∧ decode 0xD015 = .instr (.drwVxVyN 0 1 5) ∧ decode 0xE49E = .instr (.skpVx 4) ∧
  decode 0xF265 = .instr (.ldVxMemI 2) ∧ decode 0x0000 = .reject .unknown0 ∧ decode 0x812F = .reject .unknown8

/-- R101: for each shape of line, which lines are well formed: the register indices below 16, `nnn` at most 0xFFF, `kk` at
most 0xFF, `n` at most 15; a line of no shape is not well formed (a well-formed line is the line of an instruction, in
particular JP with a register takes V0 alone), and the line of every instruction is. (Decision D19.) -/
def Obligations.WrittenOperandsAreRangeChecked : Prop :=
  (∀ m ∈ [Mnemonic.CLS, .RET], (Line.mk m []).wellFormed = true) ∧
  (∀ v : Nat,
    (∀ m ∈ [Mnemonic.JP, .CALL], (Line.mk m [.num v]).wellFormed = true ↔ v ≤ 0xFFF) ∧
    ((Line.mk .JP [.V 0, .num v]).wellFormed = true ↔ v ≤ 0xFFF) ∧
    ((Line.mk .LD [.I, .num v]).wellFormed = true ↔ v ≤ 0xFFF)) ∧
  (∀ x v : Nat, ∀ m ∈ [Mnemonic.SE, .SNE, .LD, .ADD, .RND],
    (Line.mk m [.V x, .num v]).wellFormed = true ↔ x < 16 ∧ v ≤ 0xFF) ∧
  (∀ x y : Nat, ∀ m ∈ [Mnemonic.SE, .SNE, .LD, .ADD, .OR, .AND, .XOR, .SUB, .SUBN],
    (Line.mk m [.V x, .V y]).wellFormed = true ↔ x < 16 ∧ y < 16) ∧
  (∀ x y v : Nat, (Line.mk .DRW [.V x, .V y, .num v]).wellFormed = true ↔ x < 16 ∧ y < 16 ∧ v ≤ 15) ∧
  (∀ x : Nat,
    (∀ m ∈ [Mnemonic.SHR, .SHL, .SKP, .SKNP], (Line.mk m [.V x]).wellFormed = true ↔ x < 16) ∧
    (∀ o ∈ [Operand.DT, .K, .memI], (Line.mk .LD [.V x, o]).wellFormed = true ↔ x < 16) ∧
    (∀ o ∈ [Operand.DT, .ST, .F, .B, .memI], (Line.mk .LD [o, .V x]).wellFormed = true ↔ x < 16) ∧
    ((Line.mk .ADD [.I, .V x]).wellFormed = true ↔ x < 16)) ∧
  (∀ l : Line, l.wellFormed = true → ∃ i : Instr, l = i.toLine) ∧ (∀ i : Instr, i.wellFormed = true)

/-! Step -/

/-- R120: a Step clears diag, fetches the two bytes at pc and pc + 1 (flagging MEM_OOB where one is outside memory),
advances pc by 2, decodes the word, and is exec of the instruction in that state; of an unknown opcode only the flag. The
Step operation returns diag. (What a byte outside memory reads as and when MEM_OOB is flagged are R63 and R64, decision D6;
the flags are D11; diag as a field of the state is the model's choice: log 2; the `rnd` input is the model's free value,
read by RND: log 1.) -/
def Obligations.StepRunsTheDecodedInstruction : Prop :=
  ∀ s : State,
    (∀ i, decode (s.readByte s.pc.toNat ++ s.readByte (s.pc.toNat + 1)) = .instr i →
      step s = exec i { s with pc := s.pc + 2, diag := ⟨false, false, false, decide (4096 ≤ s.pc.toNat + 1)⟩ }) ∧
    (∀ r, decode (s.readByte s.pc.toNat ++ s.readByte (s.pc.toNat + 1)) = .reject r →
      step s = .next { s with pc := s.pc + 2, diag := ⟨true, false, false, decide (4096 ≤ s.pc.toNat + 1)⟩ }) ∧
    (∀ (font : Font) (t : State), step s = .next t → perform font .step s = .next ⟨t, .diag t.diag⟩)

/-- R124: a Step on an unknown opcode completes, advances pc by 2, flags UNKNOWN_OPCODE, and changes nothing else (decision
D11 for the flag). -/
def Obligations.UnknownOpcodeIsSilentNoOp : Prop :=
  ∀ s : State, (∃ r, decode s.fetchWord = .reject r) →
    ∃ t, step s = .next t ∧ t.pc = s.pc + 2 ∧ t.diag.unknownOpcode = true ∧ t.diag.stackOverflow = false ∧
      t.diag.stackUnderflow = false ∧ OnlyChanges [.pc, .diag] s t

/-- R63, R122: a Step with pc outside memory is a no-op with both flags; at 0xFFF the low byte reads 0x00 and MEM_OOB is
flagged. The out-of-bounds policy is the spec's decision D6. -/
def Obligations.FetchOutsideMemory : Prop :=
  ∀ s : State,
    (4096 ≤ s.pc.toNat → step s = .next { s with pc := s.pc + 2, diag := ⟨true, false, false, true⟩ }) ∧
    (s.pc = 0xFFF#16 → s.fetchWord = s.readByte 0xFFF ++ 0x00#8 ∧ ∃ t, step s = .next t ∧ t.diag.memOob = true)

/-- R16, R127, R250: no instruction, no Step and no host operation faults, is refused or blocks. -/
def Obligations.EveryOperationAnswersNext : Prop :=
  (∀ (i : Instr) (s : State), ∃ t, exec i s = .next t) ∧ (∀ s : State, ∃ t, step s = .next t) ∧
  (∀ (font : Font) (ls : List Label) (s : State), ∃ t, schedule font ls s = .next t)

/-- R126: the diag of the last Step never changes what a Step does. The field is the model's choice (log 2, D11). -/
def Obligations.StepIgnoresDiag : Prop := ∀ (s : State) (d : Diag), step { s with diag := d } = step s

/-- R253: after any Step diag is one of 0000, 0001, 0010, 0100, 1000, 1001, 1010 (an inference of the spec). -/
def Obligations.DiagTakesSevenValues : Prop :=
  ∀ s t : State, step s = .next t → t.diag.bits ∈ [0b0000#4, 0b0001#4, 0b0010#4, 0b0100#4, 0b1000#4, 0b1001#4, 0b1010#4]

/-- R251, R289: a Step reports no abnormal condition exactly when both fetched bytes are inside memory, the word is an
instruction, every data byte is inside memory, a CALL finds depth below 16 and a RET depth above 0 (decisions D6, D11). -/
def Obligations.CleanStepConditions : Prop :=
  ∀ s : State, CleanStep s ↔ ∃ i, decode s.fetchWord = .instr i ∧ s.pc.toNat + 1 < 4096 ∧
    (dataBytes i = 0 ∨ s.i.toNat + dataBytes i ≤ 4096) ∧ ((∃ nnn, i = .callNnn nnn) → s.depth < 16) ∧
    (i = .ret → 0 < s.depth)

/-- The invariant (call depth at most 16, memory in canonical form: log 4) is kept by every Step from every state that
meets it. -/
def Obligations.InvariantKeptByEveryStep : Prop := ∀ s t : State, s.Inv → step s = .next t → t.Inv

/-- The invariant holds after Reset, whatever FONT is, the default included. -/
def Obligations.InvariantHoldsAtReset : Prop := State.reset.Inv ∧ ∀ font : Font, (State.resetWith font).Inv

/-- The invariant is kept by every schedule of host operations: Steps, ticks, key events, loads, resets (R14),
whatever FONT is. -/
def Obligations.InvariantKeptByEverySchedule : Prop :=
  ∀ (font : Font) (ls : List Label) (s t : State), s.Inv → schedule font ls s = .next t → t.Inv

/-- Canonical memories that read the same are the same data, so states that agree on every part are equal (log 4). -/
def Obligations.StatesThatReadTheSameAreEqual : Prop :=
  ∀ s t : State, s.Inv → t.Inv → OnlyChanges [] s t → t = s

/-- R42: the access map. A Step changes a part only when it runs an instruction the map lets write it; no Step writes a key
(an inference of the spec from its instruction rules). -/
def Obligations.AccessMapOfStep : Prop :=
  ∀ s t : State, step s = .next t →
    (∀ j, t.getV j ≠ s.getV j → ∃ i, decode s.fetchWord = .instr i ∧ mayWriteV i j) ∧
    (t.i ≠ s.i → ∃ x nnn, decode s.fetchWord ∈
      [.instr (.ldINnn nnn), .instr (.addIVx x), .instr (.ldFVx x), .instr (.ldMemIVx x), .instr (.ldVxMemI x)]) ∧
    (t.stack ≠ s.stack → ∃ nnn, decode s.fetchWord ∈ [.instr (.callNnn nnn), .instr .ret]) ∧
    (t.dt ≠ s.dt → ∃ x, decode s.fetchWord = .instr (.ldDTVx x)) ∧
    (t.st ≠ s.st → ∃ x, decode s.fetchWord = .instr (.ldSTVx x)) ∧
    (t.fb ≠ s.fb → ∃ x y n, decode s.fetchWord ∈ [.instr .cls, .instr (.drwVxVyN x y n)]) ∧
    ((∃ a, t.readByte a ≠ s.readByte a) → ∃ x, decode s.fetchWord ∈ [.instr (.ldBVx x), .instr (.ldMemIVx x)]) ∧
    t.key = s.key

/-- R34: where the program counter stands after a Step, for every instruction and the unknown opcode (sums modulo 65536:
decision D7; lowest key: D13). -/
def Obligations.ProgramCounterAfterStep : Prop :=
  ∀ s : State, ∃ t, step s = .next t ∧ t.pc = pcAfter s (decode s.fetchWord).instr?

/-- R36, R222: no instruction reads ST. Two runs that differ only in ST differ, after a Step, only in ST, and not at all
when the Step is LD ST,Vx. -/
def Obligations.SoundTimerCannotBeRead : Prop :=
  ∀ (s : State) (b : Byte), ∃ t, step s = .next t ∧
    ((∃ x, decode s.fetchWord = .instr (.ldSTVx x)) → step { s with st := b } = .next t) ∧
    ((¬ ∃ x, decode s.fetchWord = .instr (.ldSTVx x)) → step { s with st := b } = .next { t with st := b })

/-- R128: a Step does not decrement the timers (only LD DT,Vx and LD ST,Vx write them, with V[x]) and does not sample the
keys except in SKP, SKNP and LD Vx,K. -/
def Obligations.StepTicksNoTimerAndSamplesNoKey : Prop :=
  ∀ s : State, ∃ t, step s = .next t ∧
    t.dt = (match decode s.fetchWord with | .instr (.ldDTVx x) => s.getV x | _ => s.dt) ∧
    t.st = (match decode s.fetchWord with | .instr (.ldSTVx x) => s.getV x | _ => s.st) ∧
    ((¬ ∃ i, decode s.fetchWord = .instr i ∧ ReadsKeys i) →
      ∀ k : Vector Bool 16, step { s with key := k } = .next { t with key := k })

/-! Register load, arithmetic, logic, random -/

/-- R140, R142: the immediate, or V[y], is copied to V[x]; nothing else changes, VF included (general knowledge, D20). -/
def Obligations.LoadImmediateAndCopy : Prop :=
  ∀ (x y : Reg) (kk : Imm8), SetsV (.ldVxKk x kk) x (fun _ => kk) ∧ SetsV (.ldVxVy x y) x (fun s => s.getV y)

/-- R141: the sum modulo 256, no carry recorded (general knowledge, D20). -/
def Obligations.AddImmediateWrapsWithoutFlag : Prop :=
  ∀ (x : Reg) (kk : Imm8),
    SetsV (.addVxKk x kk) x (fun s => BitVec.ofNat 8 (((s.getV x).toNat + kk.toNat) % 256))

/-- R143, R144, R145: bit by bit, VF unchanged unless x = 15 (decision D4). -/
def Obligations.BitwiseLogicLeavesFlag : Prop :=
  ∀ x y : Reg, SetsV (.orVxVy x y) x (fun s => s.getV x ||| s.getV y) ∧
    SetsV (.andVxVy x y) x (fun s => s.getV x &&& s.getV y) ∧ SetsV (.xorVxVy x y) x (fun s => s.getV x ^^^ s.getV y)

/-- R147: sum modulo 256, VF = 1 iff the sum exceeds 255 (flag last when x = 15: decision D5). -/
def Obligations.AddSetsCarry : Prop :=
  ∀ x y : Reg, SetsVAndFlag (.addVxVy x y) x (fun s => ((s.getV x).toNat + (s.getV y).toNat : Int) % 256)
    (fun s => if 255 < (s.getV x).toNat + (s.getV y).toNat then 1 else 0)

/-- R148, R150: difference modulo 256, VF = 0 iff a borrow occurred, operands reversed in SUBN (D5 when x = 15). -/
def Obligations.SubtractSetsNotBorrow : Prop :=
  ∀ x y : Reg,
    SetsVAndFlag (.subVxVy x y) x (fun s => ((s.getV x).toNat - (s.getV y).toNat : Int) % 256)
      (fun s => if (s.getV x).toNat < (s.getV y).toNat then 0 else 1) ∧
    SetsVAndFlag (.subnVxVy x y) x (fun s => ((s.getV y).toNat - (s.getV x).toNat : Int) % 256)
      (fun s => if (s.getV y).toNat < (s.getV x).toNat then 0 else 1)

/-- R149, R151: V[x] shifted by one, VF = the bit shifted out; V[y] plays no part (D5 when x = 15). -/
def Obligations.ShiftsSetLostBit : Prop :=
  ∀ x : Reg,
    SetsVAndFlag (.shrVx x) x (fun s => (s.getV x).toNat / 2) (fun s => (s.getV x).toNat % 2) ∧
    SetsVAndFlag (.shlVx x) x (fun s => (s.getV x).toNat * 2 % 256) (fun s => (s.getV x).toNat / 128)

/-- R152: V[x] is the random byte ANDed with kk, so the bits outside kk are 0 and kk = 0 gives 0. The random byte is the
model's free value Config.rnd at the counter `draws`, which advances (log 1, decision D15). -/
def Obligations.RandomByteIsMasked : Prop :=
  ∀ (x : Reg) (kk : Imm8) (s : State), ∃ t, exec (.rndVxKk x kk) s = .next t ∧
    t.getV x = Config.rnd s.draws &&& kk ∧ t.getV x &&& ~~~kk = 0x00#8 ∧ (kk = 0x00#8 → t.getV x = 0x00#8) ∧
    t.draws = s.draws + 1 ∧ (∀ j, j ≠ x → t.getV j = s.getV j) ∧ OnlyChanges [.v, .draws] s t

/-! Control flow -/

/-- R160: every word 1nnn is a JP; pc becomes nnn, zero-extended, and nothing else changes; so it is after a whole Step
(which also sets the model's diag field: log 2), whatever nnn is, and a jump to its own address changes nothing. -/
def Obligations.JumpSetsProgramCounter : Prop :=
  (∀ w : Word, w &&& 0xF000#16 = 0x1000#16 → decode w = .instr (.jpNnn (wordNnn w))) ∧
  (∀ (nnn : Imm12) (s : State), ∃ t, exec (.jpNnn nnn) s = .next t ∧ t.pc.toNat = nnn.toNat ∧ OnlyChanges [.pc] s t) ∧
  (∀ (nnn : Imm12) (s : State), decode s.fetchWord = .instr (.jpNnn nnn) →
    ∃ t, step s = .next t ∧ t.pc.toNat = nnn.toNat ∧ OnlyChanges [.pc, .diag] s t)

/-- R19, R160: a jump to its own address is a fixed point of Step (up to the model's diag field, which the Step clears:
log 2). -/
def Obligations.JumpToSelfIsFixedPoint : Prop :=
  ∀ s : State, s.AtJumpToSelf → step s = .next { s with diag := Diag.none }

/-- R161: the advanced pc is pushed and pc becomes nnn; at depth 16 the push is dropped, STACK_OVERFLOW flagged, and the
jump still taken (decisions D9, D11). A stack of more than 16 entries, which no run reaches, behaves as at 16. -/
def Obligations.CallPushesAndJumps : Prop :=
  ∀ (nnn : Imm12) (s : State), ∃ t, exec (.callNnn nnn) s = .next t ∧ t.pc.toNat = nnn.toNat ∧
    (s.depth < 16 → t.stack = s.pc :: s.stack ∧ t.diag = s.diag) ∧
    (16 ≤ s.depth → t.stack = s.stack ∧ t.diag = { s.diag with stackOverflow := true }) ∧
    OnlyChanges [.pc, .stack, .diag] s t

/-- R162: the top entry is popped into pc, all 16 bits; on an empty stack only STACK_UNDERFLOW is flagged (decision D11). -/
def Obligations.ReturnPopsIntoProgramCounter : Prop :=
  ∀ s : State, ∃ t, exec .ret s = .next t ∧
    (∀ a rest, s.stack = a :: rest → t.pc = a ∧ t.stack = rest ∧ t.diag = s.diag) ∧
    (s.stack = [] → t.pc = s.pc ∧ t.stack = [] ∧ t.diag = { s.diag with stackUnderflow := true }) ∧
    OnlyChanges [.pc, .stack, .diag] s t

/-- R161, R162: below depth 16, a CALL and then a RET, whatever ran between them that leaves the stack alone, come back to
the instruction after the CALL with the stack as it was. -/
def Obligations.ReturnUndoesCall : Prop :=
  ∀ (nnn : Imm12) (s : State), s.depth < 16 → ∃ t, exec (.callNnn nnn) s = .next t ∧
    ∀ u : State, u.stack = t.stack → ∃ w, exec .ret u = .next w ∧ w.pc = s.pc ∧ w.stack = s.stack

/-- R163, R164, R165, R166: the four register skips compare full bytes (numbering: general knowledge G1). -/
def Obligations.RegisterSkips : Prop :=
  ∀ (x y : Reg) (kk : Imm8),
    SkipsWhen (.seVxKk x kk) (fun s => (s.getV x).toNat = kk.toNat) ∧
    SkipsWhen (.sneVxKk x kk) (fun s => (s.getV x).toNat ≠ kk.toNat) ∧
    SkipsWhen (.seVxVy x y) (fun s => (s.getV x).toNat = (s.getV y).toNat) ∧
    SkipsWhen (.sneVxVy x y) (fun s => (s.getV x).toNat ≠ (s.getV y).toNat)

/-- R168: pc becomes (V[0] + nnn) mod 4096; the index is V[0] whatever nnn holds. -/
def Obligations.IndexedJumpUsesV0 : Prop :=
  ∀ (nnn : Imm12) (s : State), ∃ t, exec (.jpV0Nnn nnn) s = .next t ∧
    t.pc.toNat = ((s.getV 0).toNat + nnn.toNat) % 4096 ∧ OnlyChanges [.pc] s t

/-- R167: an instruction can only be fetched at 0xFFF or below, so no skip leaves pc above 0x1003 (an inference of the
spec). -/
def Obligations.SkipReachesAtMost1003 : Prop :=
  ∀ (s : State) (i : Instr), decode s.fetchWord = .instr i →
    s.pc.toNat ≤ 0xFFF ∧ (IsSkip i → ∃ t, step s = .next t ∧ t.pc.toNat ≤ 0x1003)

/-! Address register and memory -/

/-- R180, R182: I becomes nnn zero-extended; I becomes V[x] times 5 without masking. -/
def Obligations.LoadAddressAndGlyph : Prop :=
  ∀ (nnn : Imm12) (x : Reg) (s : State),
    (∃ t, exec (.ldINnn nnn) s = .next t ∧ t.i.toNat = nnn.toNat ∧ OnlyChanges [.i] s t) ∧
    (∃ t, exec (.ldFVx x) s = .next t ∧ t.i.toNat = (s.getV x).toNat * 5 ∧ OnlyChanges [.i] s t)

/-- R181: I becomes I + V[x] modulo 65536 (decision D7), VF unchanged, no diag flag. -/
def Obligations.AddToAddressHasNoFlag : Prop :=
  ∀ (x : Reg) (s : State), ∃ t, exec (.addIVx x) s = .next t ∧
    t.i.toNat = (s.i.toNat + (s.getV x).toNat) % 65536 ∧ OnlyChanges [.i] s t

/-- R183: the three decimal digits of V[x] at I, I + 1, I + 2, the in-bounds ones; every other byte and I unchanged;
MEM_OOB flagged iff one of the three is out of bounds (decision D6). -/
def Obligations.BcdStoresThreeDigits : Prop :=
  ∀ (x : Reg) (s : State), ∃ t, exec (.ldBVx x) s = .next t ∧ s.dataBase = s.i.toNat ∧
    (s.dataBase < 4096 → (t.readByte s.dataBase).toNat = (s.getV x).toNat / 100) ∧
    (s.dataBase + 1 < 4096 → (t.readByte (s.dataBase + 1)).toNat = (s.getV x).toNat / 10 % 10) ∧
    (s.dataBase + 2 < 4096 → (t.readByte (s.dataBase + 2)).toNat = (s.getV x).toNat % 10) ∧
    (∀ a, ¬ (s.dataBase ≤ a ∧ a < s.dataBase + 3) → t.readByte a = s.readByte a) ∧
    t.diag = { s.diag with memOob := s.diag.memOob || decide (4096 ≤ s.dataBase + 2) } ∧ OnlyChanges [.mem, .diag] s t

/-- R185: V[0..x] at I, I + 1, ..., the in-bounds ones; every other byte unchanged; I advances by x + 1 modulo 65536 (D7);
MEM_OOB flagged iff one of them is out of bounds (D6). -/
def Obligations.RegisterDump : Prop :=
  ∀ (x : Reg) (s : State), ∃ t, exec (.ldMemIVx x) s = .next t ∧ s.dataBase = s.i.toNat ∧
    (∀ k : Reg, k.val ≤ x.val → s.dataBase + k.val < 4096 → t.readByte (s.dataBase + k.val) = s.getV k) ∧
    (∀ a, ¬ (s.dataBase ≤ a ∧ a < s.dataBase + (x.val + 1)) → t.readByte a = s.readByte a) ∧
    t.i.toNat = (s.i.toNat + x.val + 1) % 65536 ∧
    t.diag = { s.diag with memOob := s.diag.memOob || decide (4096 ≤ s.dataBase + x.val) } ∧
    OnlyChanges [.mem, .i, .diag] s t

/-- R186: V[k] for k up to x becomes the byte at I + k, 0x00 out of bounds (D6); the registers above x, memory and the rest
unchanged; I advances by x + 1 modulo 65536 (D7); MEM_OOB flagged iff one of them is out of bounds. -/
def Obligations.RegisterLoad : Prop :=
  ∀ (x : Reg) (s : State), ∃ t, exec (.ldVxMemI x) s = .next t ∧
    (∀ k : Reg, k.val ≤ x.val → s.i.toNat + k.val < 4096 → t.getV k = s.readByte (s.i.toNat + k.val)) ∧
    (∀ k : Reg, k.val ≤ x.val → 4096 ≤ s.i.toNat + k.val → t.getV k = 0x00#8) ∧
    (∀ k : Reg, x.val < k.val → t.getV k = s.getV k) ∧
    t.i.toNat = (s.i.toNat + x.val + 1) % 65536 ∧
    t.diag = { s.diag with memOob := s.diag.memOob || decide (4096 ≤ s.i.toNat + x.val) } ∧
    OnlyChanges [.v, .i, .diag] s t

/-- SP2 (R185, R186): registers dumped at an in-bounds block and loaded back from the same address, whatever the registers
held in between, have their values again. -/
def Obligations.DumpThenLoadRestores : Prop :=
  ∀ (x : Reg) (s : State), s.i.toNat + x.val < 4096 → ∃ t, exec (.ldMemIVx x) s = .next t ∧
    ∀ u : State, Same t u .mem → u.i = s.i → ∃ w, exec (.ldVxMemI x) u = .next w ∧
      ∀ k : Reg, k.val ≤ x.val → w.getV k = s.getV k

/-- R73: a store is seen by the very next fetch. After a register dump of at least two registers onto in-bounds bytes, a
Step at that address runs the word V[0], V[1], where that word is an instruction (decision D24). -/
def Obligations.FetchSeesTheLastStore : Prop :=
  ∀ (x : Reg) (s : State) (i : Instr), 1 ≤ x.val → s.i.toNat + 1 < 4096 → decode (s.getV 0 ++ s.getV 1) = .instr i →
    ∃ t, exec (.ldMemIVx x) s = .next t ∧
      step { t with pc := s.i } = exec i { t with pc := s.i + 2, diag := Diag.none }

/-! Framebuffer -/

/-- R200: every pixel becomes 0 and nothing else changes, VF included. -/
def Obligations.ClearScreen : Prop :=
  ∀ s : State, ∃ t, exec .cls s = .next t ∧ (∀ r c, t.pixel r c = false) ∧ OnlyChanges [.fb] s t

/-- R201, R202, R203: every pixel of the grid becomes old XOR sprite bit, clipped and never wrapped; VF is the collision
flag; MEM_OOB iff a sprite byte is out of bounds; nothing else changes (decisions D5, D6, D12). -/
def Obligations.DrawXorsSpriteAndDetectsCollision : Prop :=
  ∀ (x y : Reg) (n : Imm4) (s : State), ∃ t, exec (.drwVxVyN x y n) s = .next t ∧
    (∀ r c, r < 32 → c < 64 →
      t.pixel r c = (s.pixel r c ^^ spriteBit s n.toNat (s.getV x).toNat (s.getV y).toNat r c)) ∧
    (Collides s n.toNat (s.getV x).toNat (s.getV y).toNat → t.getV 15 = 0x01#8) ∧
    (¬ Collides s n.toNat (s.getV x).toNat (s.getV y).toNat → t.getV 15 = 0x00#8) ∧
    (∀ j, j ≠ 15 → t.getV j = s.getV j) ∧
    t.diag = { s.diag with memOob := s.diag.memOob || decide (n.toNat ≠ 0 ∧ 4096 < s.i.toNat + n.toNat) } ∧
    OnlyChanges [.fb, .v, .diag] s t

/-- R205 (a): drawing the same sprite twice at the same place restores the framebuffer; the second draw reports a
collision iff some sprite bit inside the grid fell on a pixel that was off before the first draw, so, where the first draw
did not collide, iff the sprite has a bit inside the grid. (R205 (a) is an inference of the spec from R201 and says the last
without the condition, which is not so where the first draw turned every covered pixel off: log 9. x, y = 15 is allowed as
long as the second draw's coordinates are the first's.) -/
def Obligations.DrawingTwiceRestores : Prop :=
  ∀ (x y : Reg) (n : Imm4) (s : State), ∃ t, exec (.drwVxVyN x y n) s = .next t ∧
    ∀ u : State, Same t u .fb → Same t u .mem → u.i = s.i → u.getV x = s.getV x → u.getV y = s.getV y →
      ∃ w, exec (.drwVxVyN x y n) u = .next w ∧ (∀ r c, w.pixel r c = s.pixel r c) ∧
        (w.getV 15 = 0x01#8 ↔ ∃ r c, r < 32 ∧ c < 64 ∧
          spriteBit s n.toNat (s.getV x).toNat (s.getV y).toNat r c = true ∧ s.pixel r c = false) ∧
        (¬ Collides s n.toNat (s.getV x).toNat (s.getV y).toNat →
          (w.getV 15 = 0x01#8 ↔ DrawsSomething s n.toNat (s.getV x).toNat (s.getV y).toNat))

/-! Timers and keys -/

/-- R220, R221, R222: V[x] becomes DT; DT becomes V[x]; ST becomes V[x]; nothing else changes. -/
def Obligations.TimerReadsAndWrites : Prop :=
  ∀ x : Reg, SetsV (.ldVxDT x) x (fun s => s.dt) ∧
    (∀ s : State, ∃ t, exec (.ldDTVx x) s = .next t ∧ t.dt = s.getV x ∧ OnlyChanges [.dt] s t) ∧
    (∀ s : State, ∃ t, exec (.ldSTVx x) s = .next t ∧ t.st = s.getV x ∧ OnlyChanges [.st] s t)

/-- R223, R224, R230: SKP skips iff V[x] names a key that is down, SKNP iff not; a value above 15 names no key (decision
D14). -/
def Obligations.KeySkipsAreComplementary : Prop :=
  ∀ x : Reg,
    SkipsWhen (.skpVx x) (fun s => ∃ h : (s.getV x).toNat < 16, s.key[(s.getV x).toNat] = true) ∧
    SkipsWhen (.sknpVx x) (fun s => ¬ ∃ h : (s.getV x).toNat < 16, s.key[(s.getV x).toNat] = true)

/-- R225: with no key down pc goes back by 2 and nothing else changes; with k the lowest key down V[x] becomes k and nothing
else changes (decision D13). -/
def Obligations.WaitForKeyReportsLowest : Prop :=
  ∀ (x : Reg) (s : State),
    ((∀ k, k < 16 → s.keyDownAt k = false) →
      ∃ t, exec (.ldVxK x) s = .next t ∧ t.pc = s.pc - 2 ∧ OnlyChanges [.pc] s t) ∧
    (∀ k : KeyIndex, s.keyDownAt k.val = true → (∀ m, m < k.val → s.keyDownAt m = false) →
      ∃ t, exec (.ldVxK x) s = .next t ∧ (t.getV x).toNat = k.val ∧ (∀ j, j ≠ x → t.getV j = s.getV j) ∧
        OnlyChanges [.v] s t)

/-- SP5 (R225): while no key is down a Step on LD Vx,K leaves the whole state unchanged (up to the model's diag field, which
the Step clears: log 2). -/
def Obligations.WaitForKeyIsFixedPoint : Prop :=
  ∀ (s : State) (x : Reg), decode s.fetchWord = .instr (.ldVxK x) → (∀ k, k < 16 → s.keyDownAt k = false) →
    ∃ t, step s = .next t ∧ OnlyChanges [.diag] s t

/-! Host operations -/

/-- R226: each timer above 0 goes down by one, independently; nothing else changes. -/
def Obligations.TickTimersCountsDown : Prop :=
  ∀ (font : Font) (s : State), ∃ t, perform font .tickTimers s = .next ⟨t, .none⟩ ∧ t.dt.toNat = s.dt.toNat - 1 ∧ t.st.toNat = s.st.toNat - 1 ∧
    OnlyChanges [.dt, .st] s t

/-- R227, R228: the one flag a code in 0..15 names is set or cleared; any other code, a KeyDown on a key already down and a
KeyUp on a key already up change nothing. -/
def Obligations.KeyEventsSetOneFlag : Prop :=
  ∀ (font : Font) (code : Int) (s : State),
    (∃ t, perform font (.keyDown code) s = .next ⟨t, .none⟩ ∧
      (∀ k : Nat, k < 16 → t.keyDownAt k = if code = (k : Int) then true else s.keyDownAt k) ∧ OnlyChanges [.key] s t ∧
      (code < 0 ∨ 15 < code → t = s) ∧ (∀ k : KeyIndex, code = (k.val : Int) → s.keyDownAt k.val = true → t = s)) ∧
    (∃ t, perform font (.keyUp code) s = .next ⟨t, .none⟩ ∧
      (∀ k : Nat, k < 16 → t.keyDownAt k = if code = (k : Int) then false else s.keyDownAt k) ∧ OnlyChanges [.key] s t ∧
      (code < 0 ∨ 15 < code → t = s) ∧ (∀ k : KeyIndex, code = (k.val : Int) → s.keyDownAt k.val = false → t = s))

/-- R229: after LD DT,Vx and then exactly t ticks, DT = max(V[x] - t, 0) (natural subtraction). -/
def Obligations.DelayTimerAfterTicks : Prop :=
  ∀ (font : Font) (x : Reg) (s : State) (n : Nat), ∃ t u, exec (.ldDTVx x) s = .next t ∧
    schedule font (List.replicate n .tickTimers) t = .next u ∧ u.dt.toNat = (s.getV x).toNat - n ∧ OnlyChanges [.dt, .st] t u

/-- R231: at any point of any schedule from Reset, whatever FONT is, key k is down exactly when the last operation among
Reset, LoadProgram, KeyDown(k) and KeyUp(k) was KeyDown(k) (an inference of the spec); a LoadProgram that fails touches
nothing (decision D17). -/
def Obligations.KeyIsDownIffLastEventWasKeyDown : Prop :=
  ∀ (font : Font) (k : KeyIndex) (ls : List Label), ∃ t, schedule font ls (State.resetWith font) = .next t ∧
    (t.keyDownAt k.val = true ↔ (ls.filter (touchesKey k)).getLast? = some (.keyDown (k.val : Int)))

/-- R280: Reset, from any state and for every FONT, leaves every element at its reset value, FONT at 0x000..0x04F and 0x00 in
every other byte; it does not depend on the state before, and two Resets equal one. (The model's own fields: diag is left
0000, log 2, and `draws` as it was, log 1.) -/
def Obligations.ResetLeavesEveryElementAtItsValue : Prop :=
  ∀ (font : Font) (s : State), ∃ t, perform font .reset s = .next ⟨t, .none⟩ ∧ (∀ j, t.getV j = 0x00#8) ∧ t.i = 0x0000#16 ∧
    t.pc = 0x0200#16 ∧ t.stack = [] ∧ t.dt = 0x00#8 ∧ t.st = 0x00#8 ∧ (∀ k, t.keyDownAt k = false) ∧
    (∀ r c, t.pixel r c = false) ∧ (∀ (a : Nat) (h : a < 80), t.readByte a = font[a]) ∧
    (∀ a, 80 ≤ a → a < 4096 → t.readByte a = 0x00#8) ∧ t.diag = Diag.none ∧ t.draws = s.draws ∧
    OnlyChanges [.draws] (State.resetWith font) t ∧ perform font .reset t = .next ⟨t, .none⟩

/-- R282: an image of more than 3583 bytes is a LoadError and changes nothing (decision D17); any other is placed verbatim
from 0x200 over the state after Reset, for every FONT (`draws`, the model's own, runs on: log 1). -/
def Obligations.LoadProgramResetsAndPlacesImage : Prop :=
  ∀ (font : Font) (image : List Byte) (s : State),
    (3583 < image.length → perform font (.loadProgram image) s = .next ⟨s, .loadError⟩) ∧
    (image.length ≤ 3583 → ∃ t, perform font (.loadProgram image) s = .next ⟨t, .ok⟩ ∧
      (∀ k (h : k < image.length), t.readByte (0x200 + k) = image[k]) ∧
      (∀ a, ¬ (0x200 ≤ a ∧ a < 0x200 + image.length) → t.readByte a = (State.resetWith font).readByte a) ∧
      OnlyChanges [.mem, .draws] (State.resetWith font) t)

/-- R204: ReadFramebuffer returns fb[r][c] for all 32 rows and 64 columns and changes no state. -/
def Obligations.ReadFramebufferShowsEveryPixel : Prop :=
  ∀ (font : Font) (s : State), ∃ rows : List (List Bool), perform font .readFramebuffer s = .next ⟨s, .grid rows⟩ ∧ rows.length = 32 ∧
    ∀ r, r < 32 → ∃ row, rows[r]? = some row ∧ row.length = 64 ∧ ∀ c, c < 64 → row[c]? = some (s.pixel r c)

/-- R260, R77: introspection shows pc, V, I, the live stack bottom to top with its depth, DT, ST, memory and keys, and
changes no state (memory and keys: decision D22). -/
def Obligations.IntrospectionShowsTheState : Prop :=
  ∀ (font : Font) (s : State), ∃ w : View, perform font .introspect s = .next ⟨s, .view w⟩ ∧ w.pc = s.pc ∧ w.i = s.i ∧ w.dt = s.dt ∧ w.st = s.st ∧
    w.stack.reverse = s.stack ∧ w.depth = s.stack.length ∧ (∀ j : Reg, w.v[j.val]? = some (s.getV j)) ∧
    (∀ k, k < 16 → w.key[k]? = some (s.keyDownAt k)) ∧ (∀ a, a < 4096 → w.mem[a]? = some (s.readByte a)) ∧
    w.v.length = 16 ∧ w.key.length = 16 ∧ w.mem.length = 4096

/-! The parameter FONT, and the keys operation by operation -/

/-- R41: FONT is a parameter; for its default value, the state after Reset is State.reset, and glyph g stands at
5g to 5g + 4: here the top row of each of the 16 default glyphs. (The bytes are the spec's general knowledge: log 3.) -/
def Obligations.ResetIsResetWithDefaultFont : Prop :=
  State.resetWith defaultFont = State.reset ∧
  (List.range 16).map (fun g => State.reset.readByte (5 * g)) =
    [0xF0#8, 0x20#8, 0xF0#8, 0xF0#8, 0x90#8, 0xF0#8, 0xF0#8, 0xF0#8] ++
    [0xF0#8, 0xF0#8, 0xF0#8, 0xE0#8, 0xF0#8, 0xE0#8, 0xF0#8, 0xF0#8]

/-- R41, R43: the bytes of FONT are the only trace of the parameter. States after Reset for two fonts differ in memory
alone, and there only where the fonts differ, below 0x050. -/
def Obligations.FontShowsOnlyInLowMemory : Prop :=
  ∀ font font' : Font, OnlyChanges [.mem] (State.resetWith font) (State.resetWith font') ∧
    (∀ (a : Nat) (h : a < 80),
      (State.resetWith font).readByte a = font[a] ∧ (State.resetWith font').readByte a = font'[a]) ∧
    ∀ a : Nat, 80 ≤ a → (State.resetWith font').readByte a = (State.resetWith font).readByte a

/-- R227, R228, R231, R280, R282, R37: what one host operation, from any state and for every FONT, does to key k: KeyDown(k)
sets it, Reset, KeyUp(k) and a LoadProgram that succeeds clear it, everything else, a Step and a failed load (decision D17)
included, leaves it. -/
def Obligations.KeyAfterOneOperation : Prop :=
  ∀ (font : Font) (k : KeyIndex) (l : Label) (s : State), ∃ d, perform font l s = .next d ∧
    (touchesKey k l = true → (d.state.keyDownAt k.val = true ↔ l = .keyDown (k.val : Int))) ∧
    (touchesKey k l = false → d.state.keyDownAt k.val = s.keyDownAt k.val)
end

