-- ==== Sys2Proof/Laws/Decode.lean ====
section
/-! SUPPORT. The fields of a word: as numbers (spec/30_encoding.md R91), against the masks of R96, and of an encoded word;
what decode answers once the compared fields are known. -/

namespace Sys2Proof

/-! Fields as numbers. -/

theorem xField_eq (w : Word) : xField w = ⟨w.toNat / 256 % 16, Nat.mod_lt _ (by decide)⟩ := by
  apply Fin.ext
  simp [xField, Nat.shiftRight_eq_div_pow]

theorem yField_eq (w : Word) : yField w = ⟨w.toNat / 16 % 16, Nat.mod_lt _ (by decide)⟩ := by
  apply Fin.ext
  simp [yField, Nat.shiftRight_eq_div_pow]

theorem nField_eq (w : Word) : nField w = BitVec.ofNat 4 w.toNat := by
  apply BitVec.eq_of_toNat_eq
  simp [nField, BitVec.extractLsb'_toNat]

theorem kkField_eq (w : Word) : kkField w = BitVec.ofNat 8 w.toNat := by
  apply BitVec.eq_of_toNat_eq
  simp [kkField, BitVec.extractLsb'_toNat]

theorem nnnField_eq (w : Word) : nnnField w = BitVec.ofNat 12 w.toNat := by
  apply BitVec.eq_of_toNat_eq
  simp [nnnField, BitVec.extractLsb'_toNat]

/-! Fields against the masks of the opcode map. -/

/-- Mask 0xF000 compares op. -/
theorem and_F000_iff (w : Word) (op : BitVec 4) : w &&& 0xF000#16 = op ++ 0x000#12 ↔ opField w = op := by
  constructor
  · intro h
    apply BitVec.eq_of_getLsbD_eq
    intro i hi
    have := congrArg (·.getLsbD (12 + i)) h
    simp only [BitVec.getLsbD_and, BitVec.getLsbD_append] at this
    simp only [opField, BitVec.getLsbD_extractLsb']
    interval_cases i <;> simpa [BitVec.getLsbD_ofNat] using this
  · rintro rfl
    apply BitVec.eq_of_getLsbD_eq
    intro i hi
    simp only [opField, BitVec.getLsbD_and, BitVec.getLsbD_append, BitVec.getLsbD_extractLsb']
    interval_cases i <;> simp

/-- Mask 0xF0FF compares op and kk. -/
theorem and_F0FF_iff (w : Word) (op : BitVec 4) (kk : Imm8) :
    w &&& 0xF0FF#16 = op ++ (0x0#4 ++ kk) ↔ opField w = op ∧ kkField w = kk := by
  constructor
  · intro h
    constructor
    · apply BitVec.eq_of_getLsbD_eq
      intro i hi
      have := congrArg (·.getLsbD (12 + i)) h
      simp only [BitVec.getLsbD_and, BitVec.getLsbD_append] at this
      simp only [opField, BitVec.getLsbD_extractLsb']
      interval_cases i <;> simpa [BitVec.getLsbD_ofNat] using this
    · apply BitVec.eq_of_getLsbD_eq
      intro i hi
      have := congrArg (·.getLsbD i) h
      simp only [BitVec.getLsbD_and, BitVec.getLsbD_append] at this
      simp only [kkField, BitVec.getLsbD_extractLsb']
      interval_cases i <;> simpa [BitVec.getLsbD_ofNat] using this
  · rintro ⟨rfl, rfl⟩
    apply BitVec.eq_of_getLsbD_eq
    intro i hi
    simp only [opField, kkField, BitVec.getLsbD_and, BitVec.getLsbD_append, BitVec.getLsbD_extractLsb']
    interval_cases i <;> simp

/-- Mask 0xF00F compares op and n. -/
theorem and_F00F_iff (w : Word) (op n : BitVec 4) :
    w &&& 0xF00F#16 = op ++ (0x00#8 ++ n) ↔ opField w = op ∧ nField w = n := by
  constructor
  · intro h
    constructor
    · apply BitVec.eq_of_getLsbD_eq
      intro i hi
      have := congrArg (·.getLsbD (12 + i)) h
      simp only [BitVec.getLsbD_and, BitVec.getLsbD_append] at this
      simp only [opField, BitVec.getLsbD_extractLsb']
      interval_cases i <;> simpa [BitVec.getLsbD_ofNat] using this
    · apply BitVec.eq_of_getLsbD_eq
      intro i hi
      have := congrArg (·.getLsbD i) h
      simp only [BitVec.getLsbD_and, BitVec.getLsbD_append] at this
      simp only [nField, BitVec.getLsbD_extractLsb']
      interval_cases i <;> simpa [BitVec.getLsbD_ofNat] using this
  · rintro ⟨rfl, rfl⟩
    apply BitVec.eq_of_getLsbD_eq
    intro i hi
    simp only [opField, nField, BitVec.getLsbD_and, BitVec.getLsbD_append, BitVec.getLsbD_extractLsb']
    interval_cases i <;> simp

/-! Fields of an encoded word, by format. -/

@[simp] theorem opField_wordNNN (op : BitVec 4) (nnn : Imm12) : opField (wordNNN op nnn) = op := by
  apply BitVec.eq_of_getLsbD_eq
  intro i hi
  simp only [opField, wordNNN, BitVec.getLsbD_append, BitVec.getLsbD_extractLsb']
  interval_cases i <;> simp

@[simp] theorem nnnField_wordNNN (op : BitVec 4) (nnn : Imm12) : nnnField (wordNNN op nnn) = nnn := by
  apply BitVec.eq_of_getLsbD_eq
  intro i hi
  simp only [nnnField, wordNNN, BitVec.getLsbD_append, BitVec.getLsbD_extractLsb']
  interval_cases i <;> simp

@[simp] theorem opField_wordXKK (op : BitVec 4) (x : Reg) (kk : Imm8) : opField (wordXKK op x kk) = op := by
  apply BitVec.eq_of_getLsbD_eq
  intro i hi
  simp only [opField, wordXKK, BitVec.getLsbD_append, BitVec.getLsbD_extractLsb']
  interval_cases i <;> simp

@[simp] theorem xField_wordXKK (op : BitVec 4) (x : Reg) (kk : Imm8) : xField (wordXKK op x kk) = x := by
  have : (wordXKK op x kk).extractLsb' 8 4 = regBits x := by
    apply BitVec.eq_of_getLsbD_eq
    intro i hi
    simp only [wordXKK, BitVec.getLsbD_append, BitVec.getLsbD_extractLsb']
    interval_cases i <;> simp
  rw [xField, this]
  rfl

@[simp] theorem kkField_wordXKK (op : BitVec 4) (x : Reg) (kk : Imm8) : kkField (wordXKK op x kk) = kk := by
  apply BitVec.eq_of_getLsbD_eq
  intro i hi
  simp only [kkField, wordXKK, BitVec.getLsbD_append, BitVec.getLsbD_extractLsb']
  interval_cases i <;> simp

@[simp] theorem opField_wordXYN (op : BitVec 4) (x y : Reg) (n : Imm4) : opField (wordXYN op x y n) = op := by
  apply BitVec.eq_of_getLsbD_eq
  intro i hi
  simp only [opField, wordXYN, BitVec.getLsbD_append, BitVec.getLsbD_extractLsb']
  interval_cases i <;> simp

@[simp] theorem xField_wordXYN (op : BitVec 4) (x y : Reg) (n : Imm4) : xField (wordXYN op x y n) = x := by
  have : (wordXYN op x y n).extractLsb' 8 4 = regBits x := by
    apply BitVec.eq_of_getLsbD_eq
    intro i hi
    simp only [wordXYN, BitVec.getLsbD_append, BitVec.getLsbD_extractLsb']
    interval_cases i <;> simp
  rw [xField, this]
  rfl

@[simp] theorem yField_wordXYN (op : BitVec 4) (x y : Reg) (n : Imm4) : yField (wordXYN op x y n) = y := by
  have : (wordXYN op x y n).extractLsb' 4 4 = regBits y := by
    apply BitVec.eq_of_getLsbD_eq
    intro i hi
    simp only [wordXYN, BitVec.getLsbD_append, BitVec.getLsbD_extractLsb']
    interval_cases i <;> simp
  rw [yField, this]
  rfl

@[simp] theorem nField_wordXYN (op : BitVec 4) (x y : Reg) (n : Imm4) : nField (wordXYN op x y n) = n := by
  apply BitVec.eq_of_getLsbD_eq
  intro i hi
  simp only [nField, wordXYN, BitVec.getLsbD_append, BitVec.getLsbD_extractLsb']
  interval_cases i <;> simp

/-! A word is its fields, and a masked word is the canonical one (R99). -/

theorem wordNNN_fields (w : Word) : wordNNN (opField w) (nnnField w) = w := by
  apply BitVec.eq_of_getLsbD_eq
  intro i hi
  simp only [wordNNN, opField, nnnField, BitVec.getLsbD_append, BitVec.getLsbD_extractLsb']
  interval_cases i <;> simp

theorem wordXKK_fields (w : Word) : wordXKK (opField w) (xField w) (kkField w) = w := by
  apply BitVec.eq_of_getLsbD_eq
  intro i hi
  have ex : regBits (xField w) = w.extractLsb' 8 4 := rfl
  simp only [wordXKK, opField, kkField, ex, BitVec.getLsbD_append, BitVec.getLsbD_extractLsb']
  interval_cases i <;> simp

theorem wordXYN_fields (w : Word) : wordXYN (opField w) (xField w) (yField w) (nField w) = w := by
  apply BitVec.eq_of_getLsbD_eq
  intro i hi
  have ex : regBits (xField w) = w.extractLsb' 8 4 := rfl
  have ey : regBits (yField w) = w.extractLsb' 4 4 := rfl
  simp only [wordXYN, opField, nField, ex, ey, BitVec.getLsbD_append, BitVec.getLsbD_extractLsb']
  interval_cases i <;> simp

theorem and_F0FF_eq (w : Word) : w &&& 0xF0FF#16 = wordXKK (opField w) 0 (kkField w) := by
  apply BitVec.eq_of_getLsbD_eq
  intro i hi
  simp only [wordXKK, opField, kkField, BitVec.getLsbD_append, BitVec.getLsbD_extractLsb', BitVec.getLsbD_and]
  interval_cases i <;> simp [regBits]

theorem and_FFF0_eq (w : Word) : w &&& 0xFFF0#16 = wordXYN (opField w) (xField w) (yField w) 0x0#4 := by
  apply BitVec.eq_of_getLsbD_eq
  intro i hi
  have ex : regBits (xField w) = w.extractLsb' 8 4 := rfl
  have ey : regBits (yField w) = w.extractLsb' 4 4 := rfl
  simp only [wordXYN, opField, ex, ey, BitVec.getLsbD_append, BitVec.getLsbD_extractLsb', BitVec.getLsbD_and]
  interval_cases i <;> simp

theorem and_FF0F_eq (w : Word) : w &&& 0xFF0F#16 = wordXYN (opField w) (xField w) 0 (nField w) := by
  apply BitVec.eq_of_getLsbD_eq
  intro i hi
  have ex : regBits (xField w) = w.extractLsb' 8 4 := rfl
  simp only [wordXYN, opField, nField, ex, BitVec.getLsbD_append, BitVec.getLsbD_extractLsb', BitVec.getLsbD_and]
  interval_cases i <;> simp [regBits]

/-- A word is its two bytes. -/
@[simp] theorem wordOfBytes_hi_lo (w : Word) : wordOfBytes (hiByte w) (loByte w) = w := by
  apply BitVec.eq_of_getLsbD_eq
  intro i hi
  simp only [wordOfBytes, hiByte, loByte, BitVec.getLsbD_append, BitVec.getLsbD_extractLsb']
  by_cases h : i < 8
  · simp [h]
  · have h1 : i - 8 < 8 := by omega
    have h2 : 8 + (i - 8) = i := by omega
    simp [h, h1, h2]

theorem kkField_wordOfBytes (hi lo : Byte) : kkField (wordOfBytes hi lo) = lo := by
  apply BitVec.eq_of_getLsbD_eq
  intro i hi
  simp only [kkField, wordOfBytes, BitVec.getLsbD_append, BitVec.getLsbD_extractLsb']
  simp [hi]

/-! What decode answers when the high nibble selects a family of one. -/

theorem decode_op0 {w : Word} (h : opField w = 0x0#4) : decode w = decode0 w := by simp [decode, h]
theorem decode_op1 {w : Word} (h : opField w = 0x1#4) : decode w = .instr (.jpNnn (nnnField w)) := by simp [decode, h]
theorem decode_op2 {w : Word} (h : opField w = 0x2#4) : decode w = .instr (.callNnn (nnnField w)) := by simp [decode, h]
theorem decode_op3 {w : Word} (h : opField w = 0x3#4) : decode w = .instr (.seVxKk (xField w) (kkField w)) := by
  simp [decode, h]
theorem decode_op4 {w : Word} (h : opField w = 0x4#4) : decode w = .instr (.sneVxKk (xField w) (kkField w)) := by
  simp [decode, h]
theorem decode_op5 {w : Word} (h : opField w = 0x5#4) : decode w = .instr (.seVxVy (xField w) (yField w)) := by
  simp [decode, h]
theorem decode_op6 {w : Word} (h : opField w = 0x6#4) : decode w = .instr (.ldVxKk (xField w) (kkField w)) := by
  simp [decode, h]
theorem decode_op7 {w : Word} (h : opField w = 0x7#4) : decode w = .instr (.addVxKk (xField w) (kkField w)) := by
  simp [decode, h]
theorem decode_op8 {w : Word} (h : opField w = 0x8#4) : decode w = decode8 w := by simp [decode, h]
theorem decode_op9 {w : Word} (h : opField w = 0x9#4) : decode w = .instr (.sneVxVy (xField w) (yField w)) := by
  simp [decode, h]
theorem decode_opA {w : Word} (h : opField w = 0xA#4) : decode w = .instr (.ldINnn (nnnField w)) := by simp [decode, h]
theorem decode_opB {w : Word} (h : opField w = 0xB#4) : decode w = .instr (.jpV0Nnn (nnnField w)) := by simp [decode, h]
theorem decode_opC {w : Word} (h : opField w = 0xC#4) : decode w = .instr (.rndVxKk (xField w) (kkField w)) := by
  simp [decode, h]
theorem decode_opD {w : Word} (h : opField w = 0xD#4) :
    decode w = .instr (.drwVxVyN (xField w) (yField w) (nField w)) := by simp [decode, h]
theorem decode_opE {w : Word} (h : opField w = 0xE#4) : decode w = decodeE w := by simp [decode, h]
theorem decode_opF {w : Word} (h : opField w = 0xF#4) : decode w = decodeF w := by simp [decode, h]

/-! What the second level answers. -/

theorem decode0_E0 {w : Word} (h : kkField w = 0xE0#8) : decode0 w = .instr .cls := by simp [decode0, h]
theorem decode0_EE {w : Word} (h : kkField w = 0xEE#8) : decode0 w = .instr .ret := by simp [decode0, h]
theorem decode8_0 {w : Word} (h : nField w = 0x0#4) : decode8 w = .instr (.ldVxVy (xField w) (yField w)) := by simp [decode8, h]
theorem decode8_1 {w : Word} (h : nField w = 0x1#4) : decode8 w = .instr (.orVxVy (xField w) (yField w)) := by simp [decode8, h]
theorem decode8_2 {w : Word} (h : nField w = 0x2#4) : decode8 w = .instr (.andVxVy (xField w) (yField w)) := by simp [decode8, h]
theorem decode8_3 {w : Word} (h : nField w = 0x3#4) : decode8 w = .instr (.xorVxVy (xField w) (yField w)) := by simp [decode8, h]
theorem decode8_4 {w : Word} (h : nField w = 0x4#4) : decode8 w = .instr (.addVxVy (xField w) (yField w)) := by simp [decode8, h]
theorem decode8_5 {w : Word} (h : nField w = 0x5#4) : decode8 w = .instr (.subVxVy (xField w) (yField w)) := by simp [decode8, h]
theorem decode8_6 {w : Word} (h : nField w = 0x6#4) : decode8 w = .instr (.shrVx (xField w)) := by simp [decode8, h]
theorem decode8_7 {w : Word} (h : nField w = 0x7#4) : decode8 w = .instr (.subnVxVy (xField w) (yField w)) := by simp [decode8, h]
theorem decode8_E {w : Word} (h : nField w = 0xE#4) : decode8 w = .instr (.shlVx (xField w)) := by simp [decode8, h]
theorem decodeE_9E {w : Word} (h : kkField w = 0x9E#8) : decodeE w = .instr (.skpVx (xField w)) := by simp [decodeE, h]
theorem decodeE_A1 {w : Word} (h : kkField w = 0xA1#8) : decodeE w = .instr (.sknpVx (xField w)) := by simp [decodeE, h]
theorem decodeF_07 {w : Word} (h : kkField w = 0x07#8) : decodeF w = .instr (.ldVxDT (xField w)) := by simp [decodeF, h]
theorem decodeF_0A {w : Word} (h : kkField w = 0x0A#8) : decodeF w = .instr (.ldVxK (xField w)) := by simp [decodeF, h]
theorem decodeF_15 {w : Word} (h : kkField w = 0x15#8) : decodeF w = .instr (.ldDTVx (xField w)) := by simp [decodeF, h]
theorem decodeF_18 {w : Word} (h : kkField w = 0x18#8) : decodeF w = .instr (.ldSTVx (xField w)) := by simp [decodeF, h]
theorem decodeF_1E {w : Word} (h : kkField w = 0x1E#8) : decodeF w = .instr (.addIVx (xField w)) := by simp [decodeF, h]
theorem decodeF_29 {w : Word} (h : kkField w = 0x29#8) : decodeF w = .instr (.ldFVx (xField w)) := by simp [decodeF, h]
theorem decodeF_33 {w : Word} (h : kkField w = 0x33#8) : decodeF w = .instr (.ldBVx (xField w)) := by simp [decodeF, h]
theorem decodeF_55 {w : Word} (h : kkField w = 0x55#8) : decodeF w = .instr (.ldMemIVx (xField w)) := by simp [decodeF, h]
theorem decodeF_65 {w : Word} (h : kkField w = 0x65#8) : decodeF w = .instr (.ldVxMemI (xField w)) := by simp [decodeF, h]

/-- Every word has one of the sixteen high nibbles. -/
theorem opField_cases (w : Word) : ∃ k : Fin 16, opField w = BitVec.ofFin k := ⟨(opField w).toFin, rfl⟩

/-- A word whose high nibble is none of 0 to E has high nibble F. -/
theorem opField_F {w : Word} (h0 : opField w ≠ 0x0#4) (h1 : opField w ≠ 0x1#4) (h2 : opField w ≠ 0x2#4)
    (h3 : opField w ≠ 0x3#4) (h4 : opField w ≠ 0x4#4) (h5 : opField w ≠ 0x5#4) (h6 : opField w ≠ 0x6#4)
    (h7 : opField w ≠ 0x7#4) (h8 : opField w ≠ 0x8#4) (h9 : opField w ≠ 0x9#4) (hA : opField w ≠ 0xA#4)
    (hB : opField w ≠ 0xB#4) (hC : opField w ≠ 0xC#4) (hD : opField w ≠ 0xD#4) (hE : opField w ≠ 0xE#4) :
    opField w = 0xF#4 := by
  obtain ⟨k, hk⟩ := opField_cases w
  fin_cases k <;> simp_all

end Sys2Proof
end

