-- ==== Sys2Proof/Laws/Framebuffer.lean ====
section
/-! SUPPORT. One pixel written, every other pixel as before. -/

namespace Sys2Proof.Machine

@[simp] theorem Framebuffer.get_set (fb : Framebuffer) (r c : Nat) (p : Bool) (r' c' : Nat) :
    (fb.set r c p).get r' c' = if r' = r ∧ c' = c ∧ r < 32 ∧ c < 64 then p else fb.get r' c' := by
  unfold Framebuffer.set
  split
  · next h =>
    obtain ⟨hr, hc⟩ := h
    unfold Framebuffer.get
    by_cases h' : r' < 32 ∧ c' < 64
    · rw [dif_pos h', dif_pos h']
      by_cases e : r = r'
      · subst e
        by_cases ec : c = c'
        · subst ec; simp [hr, hc]
        · have : ¬ c' = c := fun e => ec e.symm
          simp [ec, this]
      · have : ¬ r' = r := fun e' => e e'.symm
        simp [e, this]
    · rw [dif_neg h', dif_neg h', if_neg (by omega)]
  · next h => rw [if_neg (by omega)]

@[simp] theorem Framebuffer.get_clear (r c : Nat) : Framebuffer.clear.get r c = false := by
  unfold Framebuffer.get Framebuffer.clear
  split <;> simp

theorem Framebuffer.get_off_grid (fb : Framebuffer) {r c : Nat} (h : ¬ (r < 32 ∧ c < 64)) : fb.get r c = false :=
  dif_neg h

/-- Two framebuffers with the same pixels are the same. -/
theorem Framebuffer.eq_of_get_eq {f g : Framebuffer} (h : ∀ r c, r < 32 → c < 64 → f.get r c = g.get r c) : f = g := by
  apply Vector.ext
  intro r hr
  apply Vector.ext
  intro c hc
  have := h r c hr hc
  simpa [Framebuffer.get, hr, hc] using this

end Sys2Proof.Machine
end

