-- ==== Sys2Proof/Laws/Memory.lean ====
section
/-! SUPPORT. What memory operations do: a read after a write, the canonical form is kept, and canonical memories that read
the same are the same list. -/

namespace Sys2Proof.Machine

namespace Memory

theorem get_erase (m : Memory) (a a' : Nat) : get (erase m a) a' = if a' = a then unlisted a else get m a' := by
  induction m with
  | nil => by_cases h : a' = a <;> simp [erase, get, h]
  | cons e rest ih =>
    obtain ⟨k, c⟩ := e
    by_cases hk : k = a
    · rw [erase, if_pos hk, ih]
      by_cases h : a' = a
      · rw [if_pos h, if_pos h]
      · rw [if_neg h, if_neg h, get, if_neg (fun e => h (e.symm.trans hk))]
    · by_cases hk' : k = a'
      · have : ¬ a' = a := fun e => hk (hk'.trans e)
        simp [erase, get, hk', this]
      · simp [erase, get, hk, hk', ih]

theorem get_insert_erase (m : Memory) (a : Nat) (b : Byte) (a' : Nat) :
    get (insert (erase m a) a b) a' = if a' = a then b else get m a' := by
  induction m with
  | nil =>
    by_cases h : a' = a
    · simp [erase, insert, get, h]
    · simp [erase, insert, get, h, Ne.symm h]
  | cons e rest ih =>
    obtain ⟨k, c⟩ := e
    by_cases hk : k = a
    · rw [erase, if_pos hk, ih]
      by_cases h : a' = a
      · simp [h]
      · have : ¬ k = a' := fun e => h (e.symm.trans hk)
        simp [get, h, this]
    · rw [erase, if_neg hk, insert]
      split
      · by_cases h : a = a'
        · simp [get, h]
        · have h' : ¬ a' = a := fun e => h e.symm
          by_cases hk' : k = a'
          · simp [get, h, h', hk']
          · simp [get, h, h', hk', get_erase]
      · by_cases hk' : k = a'
        · have h' : ¬ a' = a := fun e => hk (hk'.trans e)
          simp [get, hk', h']
        · rw [get, if_neg hk', ih]
          simp [get, hk']

/-- A read after a write: the byte written at its address, every other address as before. -/
@[simp] theorem get_put (m : Memory) (a : Nat) (b : Byte) (a' : Nat) :
    get (put m a b) a' = if a' = a then b else get m a' := by
  unfold put
  split
  · next h => rw [get_erase, h]
  · exact get_insert_erase m a b a'

/-- A read after storing a list of bytes. -/
theorem get_putAll (bs : List Byte) : ∀ (m : Memory) (a a' : Nat),
    get (putAll m a bs) a' = if h : a ≤ a' ∧ a' - a < bs.length then bs[a' - a]'h.2 else get m a' := by
  induction bs with
  | nil => intro m a a'; simp [putAll]
  | cons b bs ih =>
    intro m a a'
    rw [putAll, ih, get_put]
    by_cases h1 : a' = a
    · subst h1
      simp
    · by_cases h2 : a + 1 ≤ a' ∧ a' - (a + 1) < bs.length
      · have h3 : a ≤ a' ∧ a' - a < (b :: bs).length := by simp only [List.length_cons]; omega
        have e : a' - a = (a' - (a + 1)) + 1 := by omega
        rw [dif_pos h2, dif_pos h3]
        simp only [e, List.getElem_cons_succ]
      · have h3 : ¬ (a ≤ a' ∧ a' - a < (b :: bs).length) := by simp only [List.length_cons]; omega
        rw [dif_neg h2, dif_neg h3, if_neg h1]

theorem wfFrom_mono (m : Memory) {lo lo' : Nat} (h : lo' ≤ lo) (hm : wfFrom lo m = true) : wfFrom lo' m = true := by
  cases m with
  | nil => rfl
  | cons e rest =>
    obtain ⟨k, c⟩ := e
    simp only [wfFrom, Bool.and_eq_true, decide_eq_true_eq] at hm ⊢
    exact ⟨⟨⟨by omega, hm.1.1.2⟩, hm.1.2⟩, hm.2⟩

theorem wfFrom_erase (m : Memory) (a : Nat) : ∀ {lo : Nat}, wfFrom lo m = true → wfFrom lo (erase m a) = true := by
  induction m with
  | nil => intro lo h; exact h
  | cons e rest ih =>
    obtain ⟨k, c⟩ := e
    intro lo h
    simp only [wfFrom, Bool.and_eq_true, decide_eq_true_eq] at h
    rw [erase]
    split
    · exact wfFrom_mono _ (by omega) (ih h.2)
    · simp only [wfFrom, Bool.and_eq_true, decide_eq_true_eq]
      exact ⟨h.1, ih h.2⟩

theorem wfFrom_insert_erase (m : Memory) (a : Nat) (b : Byte) (ha : a < Config.memSize) (hb : b ≠ unlisted a) :
    ∀ {lo : Nat}, lo ≤ a → wfFrom lo m = true → wfFrom lo (insert (erase m a) a b) = true := by
  induction m with
  | nil => intro lo hlo h; simp [erase, insert, wfFrom, hlo, ha, hb]
  | cons e rest ih =>
    obtain ⟨k, c⟩ := e
    intro lo hlo h
    simp only [wfFrom, Bool.and_eq_true, decide_eq_true_eq] at h
    by_cases hk : k = a
    · rw [erase, if_pos hk]
      exact ih hlo (wfFrom_mono _ (by omega) h.2)
    · rw [erase, if_neg hk, insert]
      split
      · next hlt =>
        simp only [wfFrom, Bool.and_eq_true, decide_eq_true_eq]
        exact ⟨⟨⟨hlo, ha⟩, hb⟩, ⟨⟨by omega, h.1.1.2⟩, h.1.2⟩, wfFrom_erase _ _ h.2⟩
      · next hlt =>
        simp only [wfFrom, Bool.and_eq_true, decide_eq_true_eq]
        exact ⟨h.1, ih (by omega) h.2⟩

/-- A write in bounds keeps the canonical form. -/
theorem wf_put {m : Memory} {a : Nat} (b : Byte) (ha : a < Config.memSize) (h : wf m = true) : wf (put m a b) = true := by
  unfold put
  split
  · exact wfFrom_erase _ _ h
  · next hb => exact wfFrom_insert_erase m a b ha hb (Nat.zero_le _) h

theorem wf_putAll (bs : List Byte) : ∀ {m : Memory} {a : Nat}, a + bs.length ≤ Config.memSize → wf m = true →
    wf (putAll m a bs) = true := by
  induction bs with
  | nil => intro m a _ h; exact h
  | cons b bs ih =>
    intro m a ha h
    rw [List.length_cons] at ha
    exact ih (by omega) (wf_put b (by omega) h)

/-- Below its least address a canonical list reads as unlisted. -/
theorem get_of_wfFrom : ∀ (m : Memory) {lo a : Nat}, wfFrom lo m = true → a < lo → get m a = unlisted a := by
  intro m
  induction m with
  | nil => intro lo a _ _; rfl
  | cons e rest ih =>
    obtain ⟨k, c⟩ := e
    intro lo a h ha
    simp only [wfFrom, Bool.and_eq_true, decide_eq_true_eq] at h
    rw [get, if_neg (by omega)]
    exact ih h.2 (by omega)

theorem eq_of_get_eq_from : ∀ (m m' : Memory) {lo : Nat}, wfFrom lo m = true → wfFrom lo m' = true →
    (∀ a, a < Config.memSize → get m a = get m' a) → m = m' := by
  intro m
  induction m with
  | nil =>
    intro m' lo _ h' hg
    cases m' with
    | nil => rfl
    | cons e rest =>
      obtain ⟨k, c⟩ := e
      simp only [wfFrom, Bool.and_eq_true, decide_eq_true_eq] at h'
      have := hg k h'.1.1.2
      simp only [get, if_true] at this
      exact absurd this.symm h'.1.2
  | cons e rest ih =>
    obtain ⟨k, c⟩ := e
    intro m' lo h h' hg
    simp only [wfFrom, Bool.and_eq_true, decide_eq_true_eq] at h
    cases m' with
    | nil =>
      have := hg k h.1.1.2
      simp only [get, if_true] at this
      exact absurd this h.1.2
    | cons e' rest' =>
      obtain ⟨k', c'⟩ := e'
      simp only [wfFrom, Bool.and_eq_true, decide_eq_true_eq] at h'
      have hk : k = k' := by
        rcases Nat.lt_trichotomy k k' with hlt | heq | hgt
        · have := hg k h.1.1.2
          rw [get, if_pos rfl, get, if_neg (by omega), get_of_wfFrom rest' h'.2 (by omega)] at this
          exact absurd this h.1.2
        · exact heq
        · have := hg k' h'.1.1.2
          rw [get, if_neg (by omega), get_of_wfFrom rest h.2 (by omega), get, if_pos rfl] at this
          exact absurd this.symm h'.1.2
      subst hk
      have hc : c = c' := by
        have := hg k h.1.1.2
        rwa [get, if_pos rfl, get, if_pos rfl] at this
      subst hc
      have : rest = rest' := ih rest' h.2 h'.2 fun a ha => by
        by_cases hak : k = a
        · rw [get_of_wfFrom rest h.2 (by omega), get_of_wfFrom rest' h'.2 (by omega)]
        · have := hg a ha
          rwa [get, if_neg hak, get, if_neg hak] at this
      rw [this]

/-- Equal memories are equal data: two canonical lists that read the same everywhere are the same list. -/
theorem eq_of_get_eq {m m' : Memory} (h : wf m = true) (h' : wf m' = true)
    (hg : ∀ a, a < Config.memSize → get m a = get m' a) : m = m' :=
  eq_of_get_eq_from m m' h h' hg

end Memory

end Sys2Proof.Machine
end

