-- ==== Sys2Proof/Laws/State.lean ====
section
/-! SUPPORT. One lemma per field of State per update, and one per observer (getV, pixel, keyDownAt, lowestKey, readByte,
depth) per update that leaves it alone, each true by rfl, so that no proof unfolds a record update. -/

namespace Sys2Proof.Machine

@[simp] theorem vf_eq : vf = 15 := rfl
@[simp] theorem v0_eq : v0 = 0 := rfl

variable (s : State)

/-! setV -/

@[simp] theorem State.setV_v (x : Reg) (b : Byte) : (s.setV x b).v = s.v.set x.val b x.isLt := rfl
@[simp] theorem State.setV_i (x : Reg) (b : Byte) : (s.setV x b).i = s.i := rfl
@[simp] theorem State.setV_pc (x : Reg) (b : Byte) : (s.setV x b).pc = s.pc := rfl
@[simp] theorem State.setV_stack (x : Reg) (b : Byte) : (s.setV x b).stack = s.stack := rfl
@[simp] theorem State.setV_dt (x : Reg) (b : Byte) : (s.setV x b).dt = s.dt := rfl
@[simp] theorem State.setV_st (x : Reg) (b : Byte) : (s.setV x b).st = s.st := rfl
@[simp] theorem State.setV_key (x : Reg) (b : Byte) : (s.setV x b).key = s.key := rfl
@[simp] theorem State.setV_fb (x : Reg) (b : Byte) : (s.setV x b).fb = s.fb := rfl
@[simp] theorem State.setV_mem (x : Reg) (b : Byte) : (s.setV x b).mem = s.mem := rfl
@[simp] theorem State.setV_diag (x : Reg) (b : Byte) : (s.setV x b).diag = s.diag := rfl
@[simp] theorem State.setV_draws (x : Reg) (b : Byte) : (s.setV x b).draws = s.draws := rfl
@[simp] theorem State.setV_pixel (x : Reg) (b : Byte) (r c : Nat) : (s.setV x b).pixel r c = s.pixel r c := rfl
@[simp] theorem State.setV_keyDownAt (x : Reg) (b : Byte) (n : Nat) : (s.setV x b).keyDownAt n = s.keyDownAt n := rfl
@[simp] theorem State.setV_lowestKey (x : Reg) (b : Byte) : (s.setV x b).lowestKey = s.lowestKey := rfl
@[simp] theorem State.setV_readByte (x : Reg) (b : Byte) (a' : Nat) : (s.setV x b).readByte a' = s.readByte a' := rfl
@[simp] theorem State.setV_depth (x : Reg) (b : Byte) : (s.setV x b).depth = s.depth := rfl

/-! setI -/

@[simp] theorem State.setI_v (a : Word) : (s.setI a).v = s.v := rfl
@[simp] theorem State.setI_i (a : Word) : (s.setI a).i = a := rfl
@[simp] theorem State.setI_pc (a : Word) : (s.setI a).pc = s.pc := rfl
@[simp] theorem State.setI_stack (a : Word) : (s.setI a).stack = s.stack := rfl
@[simp] theorem State.setI_dt (a : Word) : (s.setI a).dt = s.dt := rfl
@[simp] theorem State.setI_st (a : Word) : (s.setI a).st = s.st := rfl
@[simp] theorem State.setI_key (a : Word) : (s.setI a).key = s.key := rfl
@[simp] theorem State.setI_fb (a : Word) : (s.setI a).fb = s.fb := rfl
@[simp] theorem State.setI_mem (a : Word) : (s.setI a).mem = s.mem := rfl
@[simp] theorem State.setI_diag (a : Word) : (s.setI a).diag = s.diag := rfl
@[simp] theorem State.setI_draws (a : Word) : (s.setI a).draws = s.draws := rfl
@[simp] theorem State.setI_getV (a : Word) (j : Reg) : (s.setI a).getV j = s.getV j := rfl
@[simp] theorem State.setI_pixel (a : Word) (r c : Nat) : (s.setI a).pixel r c = s.pixel r c := rfl
@[simp] theorem State.setI_keyDownAt (a : Word) (n : Nat) : (s.setI a).keyDownAt n = s.keyDownAt n := rfl
@[simp] theorem State.setI_lowestKey (a : Word) : (s.setI a).lowestKey = s.lowestKey := rfl
@[simp] theorem State.setI_readByte (a : Word) (a' : Nat) : (s.setI a).readByte a' = s.readByte a' := rfl
@[simp] theorem State.setI_depth (a : Word) : (s.setI a).depth = s.depth := rfl

/-! setPc -/

@[simp] theorem State.setPc_v (a : Word) : (s.setPc a).v = s.v := rfl
@[simp] theorem State.setPc_i (a : Word) : (s.setPc a).i = s.i := rfl
@[simp] theorem State.setPc_pc (a : Word) : (s.setPc a).pc = a := rfl
@[simp] theorem State.setPc_stack (a : Word) : (s.setPc a).stack = s.stack := rfl
@[simp] theorem State.setPc_dt (a : Word) : (s.setPc a).dt = s.dt := rfl
@[simp] theorem State.setPc_st (a : Word) : (s.setPc a).st = s.st := rfl
@[simp] theorem State.setPc_key (a : Word) : (s.setPc a).key = s.key := rfl
@[simp] theorem State.setPc_fb (a : Word) : (s.setPc a).fb = s.fb := rfl
@[simp] theorem State.setPc_mem (a : Word) : (s.setPc a).mem = s.mem := rfl
@[simp] theorem State.setPc_diag (a : Word) : (s.setPc a).diag = s.diag := rfl
@[simp] theorem State.setPc_draws (a : Word) : (s.setPc a).draws = s.draws := rfl
@[simp] theorem State.setPc_getV (a : Word) (j : Reg) : (s.setPc a).getV j = s.getV j := rfl
@[simp] theorem State.setPc_pixel (a : Word) (r c : Nat) : (s.setPc a).pixel r c = s.pixel r c := rfl
@[simp] theorem State.setPc_keyDownAt (a : Word) (n : Nat) : (s.setPc a).keyDownAt n = s.keyDownAt n := rfl
@[simp] theorem State.setPc_lowestKey (a : Word) : (s.setPc a).lowestKey = s.lowestKey := rfl
@[simp] theorem State.setPc_readByte (a : Word) (a' : Nat) : (s.setPc a).readByte a' = s.readByte a' := rfl
@[simp] theorem State.setPc_depth (a : Word) : (s.setPc a).depth = s.depth := rfl

/-! setDt -/

@[simp] theorem State.setDt_v (b : Byte) : (s.setDt b).v = s.v := rfl
@[simp] theorem State.setDt_i (b : Byte) : (s.setDt b).i = s.i := rfl
@[simp] theorem State.setDt_pc (b : Byte) : (s.setDt b).pc = s.pc := rfl
@[simp] theorem State.setDt_stack (b : Byte) : (s.setDt b).stack = s.stack := rfl
@[simp] theorem State.setDt_dt (b : Byte) : (s.setDt b).dt = b := rfl
@[simp] theorem State.setDt_st (b : Byte) : (s.setDt b).st = s.st := rfl
@[simp] theorem State.setDt_key (b : Byte) : (s.setDt b).key = s.key := rfl
@[simp] theorem State.setDt_fb (b : Byte) : (s.setDt b).fb = s.fb := rfl
@[simp] theorem State.setDt_mem (b : Byte) : (s.setDt b).mem = s.mem := rfl
@[simp] theorem State.setDt_diag (b : Byte) : (s.setDt b).diag = s.diag := rfl
@[simp] theorem State.setDt_draws (b : Byte) : (s.setDt b).draws = s.draws := rfl
@[simp] theorem State.setDt_getV (b : Byte) (j : Reg) : (s.setDt b).getV j = s.getV j := rfl
@[simp] theorem State.setDt_pixel (b : Byte) (r c : Nat) : (s.setDt b).pixel r c = s.pixel r c := rfl
@[simp] theorem State.setDt_keyDownAt (b : Byte) (n : Nat) : (s.setDt b).keyDownAt n = s.keyDownAt n := rfl
@[simp] theorem State.setDt_lowestKey (b : Byte) : (s.setDt b).lowestKey = s.lowestKey := rfl
@[simp] theorem State.setDt_readByte (b : Byte) (a' : Nat) : (s.setDt b).readByte a' = s.readByte a' := rfl
@[simp] theorem State.setDt_depth (b : Byte) : (s.setDt b).depth = s.depth := rfl

/-! setSt -/

@[simp] theorem State.setSt_v (b : Byte) : (s.setSt b).v = s.v := rfl
@[simp] theorem State.setSt_i (b : Byte) : (s.setSt b).i = s.i := rfl
@[simp] theorem State.setSt_pc (b : Byte) : (s.setSt b).pc = s.pc := rfl
@[simp] theorem State.setSt_stack (b : Byte) : (s.setSt b).stack = s.stack := rfl
@[simp] theorem State.setSt_dt (b : Byte) : (s.setSt b).dt = s.dt := rfl
@[simp] theorem State.setSt_st (b : Byte) : (s.setSt b).st = b := rfl
@[simp] theorem State.setSt_key (b : Byte) : (s.setSt b).key = s.key := rfl
@[simp] theorem State.setSt_fb (b : Byte) : (s.setSt b).fb = s.fb := rfl
@[simp] theorem State.setSt_mem (b : Byte) : (s.setSt b).mem = s.mem := rfl
@[simp] theorem State.setSt_diag (b : Byte) : (s.setSt b).diag = s.diag := rfl
@[simp] theorem State.setSt_draws (b : Byte) : (s.setSt b).draws = s.draws := rfl
@[simp] theorem State.setSt_getV (b : Byte) (j : Reg) : (s.setSt b).getV j = s.getV j := rfl
@[simp] theorem State.setSt_pixel (b : Byte) (r c : Nat) : (s.setSt b).pixel r c = s.pixel r c := rfl
@[simp] theorem State.setSt_keyDownAt (b : Byte) (n : Nat) : (s.setSt b).keyDownAt n = s.keyDownAt n := rfl
@[simp] theorem State.setSt_lowestKey (b : Byte) : (s.setSt b).lowestKey = s.lowestKey := rfl
@[simp] theorem State.setSt_readByte (b : Byte) (a' : Nat) : (s.setSt b).readByte a' = s.readByte a' := rfl
@[simp] theorem State.setSt_depth (b : Byte) : (s.setSt b).depth = s.depth := rfl

/-! setFb -/

@[simp] theorem State.setFb_v (f : Framebuffer) : (s.setFb f).v = s.v := rfl
@[simp] theorem State.setFb_i (f : Framebuffer) : (s.setFb f).i = s.i := rfl
@[simp] theorem State.setFb_pc (f : Framebuffer) : (s.setFb f).pc = s.pc := rfl
@[simp] theorem State.setFb_stack (f : Framebuffer) : (s.setFb f).stack = s.stack := rfl
@[simp] theorem State.setFb_dt (f : Framebuffer) : (s.setFb f).dt = s.dt := rfl
@[simp] theorem State.setFb_st (f : Framebuffer) : (s.setFb f).st = s.st := rfl
@[simp] theorem State.setFb_key (f : Framebuffer) : (s.setFb f).key = s.key := rfl
@[simp] theorem State.setFb_fb (f : Framebuffer) : (s.setFb f).fb = f := rfl
@[simp] theorem State.setFb_mem (f : Framebuffer) : (s.setFb f).mem = s.mem := rfl
@[simp] theorem State.setFb_diag (f : Framebuffer) : (s.setFb f).diag = s.diag := rfl
@[simp] theorem State.setFb_draws (f : Framebuffer) : (s.setFb f).draws = s.draws := rfl
@[simp] theorem State.setFb_getV (f : Framebuffer) (j : Reg) : (s.setFb f).getV j = s.getV j := rfl
@[simp] theorem State.setFb_keyDownAt (f : Framebuffer) (n : Nat) : (s.setFb f).keyDownAt n = s.keyDownAt n := rfl
@[simp] theorem State.setFb_lowestKey (f : Framebuffer) : (s.setFb f).lowestKey = s.lowestKey := rfl
@[simp] theorem State.setFb_readByte (f : Framebuffer) (a' : Nat) : (s.setFb f).readByte a' = s.readByte a' := rfl
@[simp] theorem State.setFb_depth (f : Framebuffer) : (s.setFb f).depth = s.depth := rfl

/-! setMem -/

@[simp] theorem State.setMem_v (m : Memory) : (s.setMem m).v = s.v := rfl
@[simp] theorem State.setMem_i (m : Memory) : (s.setMem m).i = s.i := rfl
@[simp] theorem State.setMem_pc (m : Memory) : (s.setMem m).pc = s.pc := rfl
@[simp] theorem State.setMem_stack (m : Memory) : (s.setMem m).stack = s.stack := rfl
@[simp] theorem State.setMem_dt (m : Memory) : (s.setMem m).dt = s.dt := rfl
@[simp] theorem State.setMem_st (m : Memory) : (s.setMem m).st = s.st := rfl
@[simp] theorem State.setMem_key (m : Memory) : (s.setMem m).key = s.key := rfl
@[simp] theorem State.setMem_fb (m : Memory) : (s.setMem m).fb = s.fb := rfl
@[simp] theorem State.setMem_mem (m : Memory) : (s.setMem m).mem = m := rfl
@[simp] theorem State.setMem_diag (m : Memory) : (s.setMem m).diag = s.diag := rfl
@[simp] theorem State.setMem_draws (m : Memory) : (s.setMem m).draws = s.draws := rfl
@[simp] theorem State.setMem_getV (m : Memory) (j : Reg) : (s.setMem m).getV j = s.getV j := rfl
@[simp] theorem State.setMem_pixel (m : Memory) (r c : Nat) : (s.setMem m).pixel r c = s.pixel r c := rfl
@[simp] theorem State.setMem_keyDownAt (m : Memory) (n : Nat) : (s.setMem m).keyDownAt n = s.keyDownAt n := rfl
@[simp] theorem State.setMem_lowestKey (m : Memory) : (s.setMem m).lowestKey = s.lowestKey := rfl
@[simp] theorem State.setMem_depth (m : Memory) : (s.setMem m).depth = s.depth := rfl

/-! setStack -/

@[simp] theorem State.setStack_v (l : List Word) : (s.setStack l).v = s.v := rfl
@[simp] theorem State.setStack_i (l : List Word) : (s.setStack l).i = s.i := rfl
@[simp] theorem State.setStack_pc (l : List Word) : (s.setStack l).pc = s.pc := rfl
@[simp] theorem State.setStack_stack (l : List Word) : (s.setStack l).stack = l := rfl
@[simp] theorem State.setStack_dt (l : List Word) : (s.setStack l).dt = s.dt := rfl
@[simp] theorem State.setStack_st (l : List Word) : (s.setStack l).st = s.st := rfl
@[simp] theorem State.setStack_key (l : List Word) : (s.setStack l).key = s.key := rfl
@[simp] theorem State.setStack_fb (l : List Word) : (s.setStack l).fb = s.fb := rfl
@[simp] theorem State.setStack_mem (l : List Word) : (s.setStack l).mem = s.mem := rfl
@[simp] theorem State.setStack_diag (l : List Word) : (s.setStack l).diag = s.diag := rfl
@[simp] theorem State.setStack_draws (l : List Word) : (s.setStack l).draws = s.draws := rfl
@[simp] theorem State.setStack_getV (l : List Word) (j : Reg) : (s.setStack l).getV j = s.getV j := rfl
@[simp] theorem State.setStack_pixel (l : List Word) (r c : Nat) : (s.setStack l).pixel r c = s.pixel r c := rfl
@[simp] theorem State.setStack_keyDownAt (l : List Word) (n : Nat) : (s.setStack l).keyDownAt n = s.keyDownAt n := rfl
@[simp] theorem State.setStack_lowestKey (l : List Word) : (s.setStack l).lowestKey = s.lowestKey := rfl
@[simp] theorem State.setStack_readByte (l : List Word) (a' : Nat) : (s.setStack l).readByte a' = s.readByte a' := rfl

/-! setKey -/

@[simp] theorem State.setKey_v (k : KeyIndex) (p : Bool) : (s.setKey k p).v = s.v := rfl
@[simp] theorem State.setKey_i (k : KeyIndex) (p : Bool) : (s.setKey k p).i = s.i := rfl
@[simp] theorem State.setKey_pc (k : KeyIndex) (p : Bool) : (s.setKey k p).pc = s.pc := rfl
@[simp] theorem State.setKey_stack (k : KeyIndex) (p : Bool) : (s.setKey k p).stack = s.stack := rfl
@[simp] theorem State.setKey_dt (k : KeyIndex) (p : Bool) : (s.setKey k p).dt = s.dt := rfl
@[simp] theorem State.setKey_st (k : KeyIndex) (p : Bool) : (s.setKey k p).st = s.st := rfl
@[simp] theorem State.setKey_key (k : KeyIndex) (p : Bool) : (s.setKey k p).key = s.key.set k.val p k.isLt := rfl
@[simp] theorem State.setKey_fb (k : KeyIndex) (p : Bool) : (s.setKey k p).fb = s.fb := rfl
@[simp] theorem State.setKey_mem (k : KeyIndex) (p : Bool) : (s.setKey k p).mem = s.mem := rfl
@[simp] theorem State.setKey_diag (k : KeyIndex) (p : Bool) : (s.setKey k p).diag = s.diag := rfl
@[simp] theorem State.setKey_draws (k : KeyIndex) (p : Bool) : (s.setKey k p).draws = s.draws := rfl
@[simp] theorem State.setKey_getV (k : KeyIndex) (p : Bool) (j : Reg) : (s.setKey k p).getV j = s.getV j := rfl
@[simp] theorem State.setKey_pixel (k : KeyIndex) (p : Bool) (r c : Nat) : (s.setKey k p).pixel r c = s.pixel r c := rfl
@[simp] theorem State.setKey_readByte (k : KeyIndex) (p : Bool) (a' : Nat) : (s.setKey k p).readByte a' = s.readByte a' := rfl
@[simp] theorem State.setKey_depth (k : KeyIndex) (p : Bool) : (s.setKey k p).depth = s.depth := rfl

/-! setDiag -/

@[simp] theorem State.setDiag_v (d : Diag) : (s.setDiag d).v = s.v := rfl
@[simp] theorem State.setDiag_i (d : Diag) : (s.setDiag d).i = s.i := rfl
@[simp] theorem State.setDiag_pc (d : Diag) : (s.setDiag d).pc = s.pc := rfl
@[simp] theorem State.setDiag_stack (d : Diag) : (s.setDiag d).stack = s.stack := rfl
@[simp] theorem State.setDiag_dt (d : Diag) : (s.setDiag d).dt = s.dt := rfl
@[simp] theorem State.setDiag_st (d : Diag) : (s.setDiag d).st = s.st := rfl
@[simp] theorem State.setDiag_key (d : Diag) : (s.setDiag d).key = s.key := rfl
@[simp] theorem State.setDiag_fb (d : Diag) : (s.setDiag d).fb = s.fb := rfl
@[simp] theorem State.setDiag_mem (d : Diag) : (s.setDiag d).mem = s.mem := rfl
@[simp] theorem State.setDiag_diag (d : Diag) : (s.setDiag d).diag = d := rfl
@[simp] theorem State.setDiag_draws (d : Diag) : (s.setDiag d).draws = s.draws := rfl
@[simp] theorem State.setDiag_getV (d : Diag) (j : Reg) : (s.setDiag d).getV j = s.getV j := rfl
@[simp] theorem State.setDiag_pixel (d : Diag) (r c : Nat) : (s.setDiag d).pixel r c = s.pixel r c := rfl
@[simp] theorem State.setDiag_keyDownAt (d : Diag) (n : Nat) : (s.setDiag d).keyDownAt n = s.keyDownAt n := rfl
@[simp] theorem State.setDiag_lowestKey (d : Diag) : (s.setDiag d).lowestKey = s.lowestKey := rfl
@[simp] theorem State.setDiag_readByte (d : Diag) (a' : Nat) : (s.setDiag d).readByte a' = s.readByte a' := rfl
@[simp] theorem State.setDiag_depth (d : Diag) : (s.setDiag d).depth = s.depth := rfl

/-! nextDraw -/

@[simp] theorem State.nextDraw_v : (s.nextDraw).v = s.v := rfl
@[simp] theorem State.nextDraw_i : (s.nextDraw).i = s.i := rfl
@[simp] theorem State.nextDraw_pc : (s.nextDraw).pc = s.pc := rfl
@[simp] theorem State.nextDraw_stack : (s.nextDraw).stack = s.stack := rfl
@[simp] theorem State.nextDraw_dt : (s.nextDraw).dt = s.dt := rfl
@[simp] theorem State.nextDraw_st : (s.nextDraw).st = s.st := rfl
@[simp] theorem State.nextDraw_key : (s.nextDraw).key = s.key := rfl
@[simp] theorem State.nextDraw_fb : (s.nextDraw).fb = s.fb := rfl
@[simp] theorem State.nextDraw_mem : (s.nextDraw).mem = s.mem := rfl
@[simp] theorem State.nextDraw_diag : (s.nextDraw).diag = s.diag := rfl
@[simp] theorem State.nextDraw_draws : (s.nextDraw).draws = s.draws + 1 := rfl
@[simp] theorem State.nextDraw_getV (j : Reg) : (s.nextDraw).getV j = s.getV j := rfl
@[simp] theorem State.nextDraw_pixel (r c : Nat) : (s.nextDraw).pixel r c = s.pixel r c := rfl
@[simp] theorem State.nextDraw_keyDownAt (n : Nat) : (s.nextDraw).keyDownAt n = s.keyDownAt n := rfl
@[simp] theorem State.nextDraw_lowestKey  : (s.nextDraw).lowestKey = s.lowestKey := rfl
@[simp] theorem State.nextDraw_readByte (a' : Nat) : (s.nextDraw).readByte a' = s.readByte a' := rfl
@[simp] theorem State.nextDraw_depth  : (s.nextDraw).depth = s.depth := rfl

/-! The flags of diag -/

@[simp] theorem State.raiseUnknownOpcode_eq : s.raiseUnknownOpcode = s.setDiag { s.diag with unknownOpcode := true } := rfl
@[simp] theorem State.raiseStackOverflow_eq : s.raiseStackOverflow = s.setDiag { s.diag with stackOverflow := true } := rfl
@[simp] theorem State.raiseStackUnderflow_eq : s.raiseStackUnderflow = s.setDiag { s.diag with stackUnderflow := true } := rfl
@[simp] theorem State.raiseMemOob_eq : s.raiseMemOob = s.setDiag { s.diag with memOob := true } := rfl

/-! What an update does to the observer of its own field -/

@[simp] theorem State.setV_getV (x : Reg) (b : Byte) (j : Reg) :
    (s.setV x b).getV j = if j = x then b else s.getV j := by
  simp [State.getV, State.setV, Vector.get_eq_getElem, Vector.getElem_set, Fin.ext_iff, eq_comm]

@[simp] theorem State.setKey_keyDownAt (k : KeyIndex) (p : Bool) (n : Nat) :
    (s.setKey k p).keyDownAt n = if n = k.val then p else s.keyDownAt n := by
  by_cases h : n < 16
  · simp [State.keyDownAt, State.setKey, h, Vector.getElem_set, eq_comm]
  · have : n ≠ k.val := by omega
    simp [State.keyDownAt, h, this]

@[simp] theorem State.setStack_depth (l : List Word) : (s.setStack l).depth = l.length := rfl

/-- Two states with the same fields are the same state. -/
theorem State.ext_fields {s t : State} (hv : t.v = s.v) (hi : t.i = s.i) (hpc : t.pc = s.pc) (hstack : t.stack = s.stack)
    (hdt : t.dt = s.dt) (hst : t.st = s.st) (hkey : t.key = s.key) (hfb : t.fb = s.fb) (hmem : t.mem = s.mem)
    (hdiag : t.diag = s.diag) (hdraws : t.draws = s.draws) : t = s := by
  cases s; cases t; simp_all

end Sys2Proof.Machine
end

