-- ==== Sys2Proof/Laws/Ops.lean ====
section
/-! SUPPORT. One lemma for each shared operation that says everything it does: the diag side of memory accesses, byte
writes, register loads, the call stack, skips, the flag write, the fetch. -/

namespace Sys2Proof.Machine

variable (s : State)

/-! Diag side of accesses: only `memOob` can change, and only upward. -/

theorem State.noteAccess_eq (a : Nat) :
    s.noteAccess a = s.setDiag { s.diag with memOob := s.diag.memOob || decide (4096 ≤ a) } := by
  unfold State.noteAccess Config.memSize
  split
  · next h => rw [decide_eq_false (by omega), Bool.or_false]; rfl
  · next h => rw [decide_eq_true (by omega), Bool.or_true]; rfl

theorem State.noteAccesses_eq (a n : Nat) : s.noteAccesses a n =
    s.setDiag { s.diag with memOob := s.diag.memOob || decide (n ≠ 0 ∧ 4096 < a + n) } := by
  induction n with
  | zero => simp [State.noteAccesses]; rfl
  | succ n ih =>
    rw [State.noteAccesses, ih, State.noteAccess_eq]
    have : (decide (n ≠ 0 ∧ 4096 < a + n) || decide (4096 ≤ a + n)) = decide (n + 1 ≠ 0 ∧ 4096 < a + (n + 1)) := by
      rw [← Bool.decide_or]
      exact decide_eq_decide.2 (by omega)
    simp only [State.setDiag_diag, Bool.or_assoc, this]
    rfl

/-! Byte writes. -/

theorem State.writeByte_eq (a : Nat) (b : Byte) : s.writeByte a b =
    (s.setMem (if a < 4096 then s.mem.put a b else s.mem)).setDiag
      { s.diag with memOob := s.diag.memOob || decide (4096 ≤ a) } := by
  unfold State.writeByte Config.memSize
  split
  · next h => rw [decide_eq_false (by omega), Bool.or_false]; rfl
  · next h => rw [decide_eq_true (by omega), Bool.or_true]; rfl

theorem State.readByte_eq (a : Nat) : s.readByte a = if a < 4096 then s.mem.get a else 0x00#8 := rfl

@[simp] theorem State.writeByte_readByte (a : Nat) (b : Byte) (a' : Nat) :
    (s.writeByte a b).readByte a' = if a' = a ∧ a < 4096 then b else s.readByte a' := by
  rw [State.writeByte_eq]
  simp only [State.readByte_eq, State.setDiag_mem, State.setMem_mem]
  by_cases h : a < 4096
  · by_cases h' : a' = a
    · subst h'; simp [h]
    · simp [h, h']
  · have : ¬ (a' = a ∧ a < 4096) := fun e => h e.2
    simp [h]

/-- Writing a list of bytes changes memory and the `memOob` flag, nothing else. -/
theorem State.writeBytes_eq (bs : List Byte) : ∀ (s : State) (a : Nat), ∃ m : Memory, s.writeBytes a bs =
    (s.setMem m).setDiag
      { s.diag with memOob := s.diag.memOob || decide (bs.length ≠ 0 ∧ 4096 < a + bs.length) } := by
  induction bs with
  | nil => intro s a; exact ⟨s.mem, by simp [State.writeBytes]; rfl⟩
  | cons b bs ih =>
    intro s a
    obtain ⟨m, hm⟩ := ih (s.writeByte a b) (a + 1)
    refine ⟨m, ?_⟩
    rw [State.writeBytes, hm, State.writeByte_eq]
    have : (decide (4096 ≤ a) || decide (bs.length ≠ 0 ∧ 4096 < a + 1 + bs.length)) =
        decide ((b :: bs).length ≠ 0 ∧ 4096 < a + (b :: bs).length) := by
      rw [← Bool.decide_or, List.length_cons]
      exact decide_eq_decide.2 (by omega)
    simp only [State.setDiag_diag, Bool.or_assoc, this]
    rfl

/-- Which byte every address holds after a list of bytes is written: the in-bounds addresses of the block hold the list's
bytes, every other address reads as before. -/
theorem State.writeBytes_readByte (bs : List Byte) : ∀ (s : State) (a a' : Nat), (s.writeBytes a bs).readByte a' =
    if h : (a ≤ a' ∧ a' - a < bs.length) ∧ a' < 4096 then bs[a' - a]'h.1.2 else s.readByte a' := by
  induction bs with
  | nil => intro s a a'; simp [State.writeBytes]
  | cons b bs ih =>
    intro s a a'
    rw [State.writeBytes, ih, State.writeByte_readByte]
    by_cases h1 : a' = a
    · subst h1
      by_cases h4 : a' < 4096
      · rw [dif_neg (by omega), if_pos ⟨rfl, h4⟩, dif_pos ⟨⟨Nat.le_refl _, by simp⟩, h4⟩]
        simp
      · rw [dif_neg (by omega), if_neg (by omega), dif_neg (by omega)]
    · rw [if_neg (by omega)]
      by_cases h2 : (a + 1 ≤ a' ∧ a' - (a + 1) < bs.length) ∧ a' < 4096
      · have h3 : (a ≤ a' ∧ a' - a < (b :: bs).length) ∧ a' < 4096 := by simp only [List.length_cons]; omega
        have e : a' - a = (a' - (a + 1)) + 1 := by omega
        rw [dif_pos h2, dif_pos h3]
        simp only [e, List.getElem_cons_succ]
      · have h3 : ¬ ((a ≤ a' ∧ a' - a < (b :: bs).length) ∧ a' < 4096) := by simp only [List.length_cons]; omega
        rw [dif_neg h2, dif_neg h3]

/-- A write keeps the canonical form of memory. -/
theorem State.writeByte_wf (a : Nat) (b : Byte) (h : Memory.wf s.mem = true) :
    Memory.wf (s.writeByte a b).mem = true := by
  rw [State.writeByte_eq]
  simp only [State.setDiag_mem, State.setMem_mem]
  split
  · next ha => exact Memory.wf_put b ha h
  · exact h

theorem State.writeBytes_wf (bs : List Byte) : ∀ (s : State) (a : Nat), Memory.wf s.mem = true →
    Memory.wf (s.writeBytes a bs).mem = true := by
  induction bs with
  | nil => intro s a h; exact h
  | cons b bs ih => intro s a h; exact ih _ _ (s.writeByte_wf a b h)

/-- A byte out of bounds reads as 0x00. -/
theorem State.readByte_oob {a : Nat} (h : 4096 ≤ a) : s.readByte a = 0x00#8 := if_neg (by simp [Config.memSize]; omega)

/-! Register lists. -/

theorem mem_regsUpTo (x k : Reg) : k ∈ regsUpTo x ↔ k.val ≤ x.val := by
  revert x k; decide

theorem regsUpTo_length (x : Reg) : (regsUpTo x).length = x.val + 1 := by
  revert x; decide

theorem regsUpTo_get (x : Reg) (k : Nat) (h : k < (regsUpTo x).length) :
    (regsUpTo x)[k] = ⟨k, by rw [regsUpTo_length] at h; omega⟩ := by
  simp [regsUpTo]

theorem State.regBytes_length (x : Reg) : (s.regBytes x).length = x.val + 1 := by
  simp [State.regBytes, regsUpTo_length]

theorem State.regBytes_get (x k : Reg) (h : k.val < (s.regBytes x).length) : (s.regBytes x)[k.val] = s.getV k := by
  simp only [State.regBytes, List.getElem_map, regsUpTo_get]

/-! Loading registers from memory. -/

/-- Loading a list of registers changes those registers and the `memOob` flag, nothing else. -/
theorem State.loadRegs_eq (ks : List Reg) : ∀ (s : State) (a : Nat), ∃ (v : Vector Byte 16) (oob : Bool),
    s.loadRegs a ks = { s with v := v, diag := { s.diag with memOob := s.diag.memOob || oob } } := by
  induction ks with
  | nil => intro s a; exact ⟨s.v, false, by simp [State.loadRegs]⟩
  | cons k ks ih =>
    intro s a
    obtain ⟨v, oob, hv⟩ := ih ((s.noteAccess (a + k.val)).setV k (s.readByte (a + k.val))) a
    refine ⟨v, decide (4096 ≤ a + k.val) || oob, ?_⟩
    rw [State.loadRegs, hv, State.noteAccess_eq]
    simp only [State.setV_diag, State.setDiag_diag, Bool.or_assoc]
    rfl

theorem State.loadRegs_getV (ks : List Reg) : ∀ (s : State) (a : Nat) (j : Reg), (s.loadRegs a ks).getV j =
    if j ∈ ks then s.readByte (a + j.val) else s.getV j := by
  induction ks with
  | nil => intro s a j; simp [State.loadRegs]
  | cons k ks ih =>
    intro s a j
    rw [State.loadRegs, ih, State.noteAccess_eq]
    by_cases h : j = k
    · subst h; simp
    · simp [h]

theorem State.loadRegs_memOob (ks : List Reg) : ∀ (s : State) (a : Nat), (s.loadRegs a ks).diag =
    { s.diag with memOob := s.diag.memOob || ks.any fun k => decide (4096 ≤ a + k.val) } := by
  induction ks with
  | nil => intro s a; simp [State.loadRegs]
  | cons k ks ih =>
    intro s a
    rw [State.loadRegs, ih, State.noteAccess_eq]
    simp only [State.setV_diag, State.setDiag_diag, Bool.or_assoc, List.any_cons]

/-- Some address of the block is out of bounds exactly when its last one is. -/
theorem regsUpTo_any_oob (x : Reg) (a : Nat) :
    ((regsUpTo x).any fun k => decide (4096 ≤ a + k.val)) = decide (4096 ≤ a + x.val) := by
  rw [Bool.eq_iff_iff, List.any_eq_true, decide_eq_true_eq]
  constructor
  · rintro ⟨k, hk, h⟩
    rw [mem_regsUpTo] at hk
    rw [decide_eq_true_eq] at h
    omega
  · intro h
    exact ⟨x, (mem_regsUpTo x x).2 (Nat.le_refl _), decide_eq_true h⟩

/-! The call stack. -/

/-- What CALL's push does. -/
theorem State.push_cases (a : Word) :
    (s.stack.length < 16 ∧ s.push a = s.setStack (a :: s.stack)) ∨
      (16 ≤ s.stack.length ∧ s.push a = s.setDiag { s.diag with stackOverflow := true }) := by
  by_cases h : s.stack.length < 16
  · exact .inl ⟨h, if_pos h⟩
  · exact .inr ⟨by omega, if_neg h⟩

/-- What RET does. -/
theorem State.popToPc_cases :
    (∃ a rest, s.stack = a :: rest ∧ s.popToPc = (s.setStack rest).setPc a) ∨
      (s.stack = [] ∧ s.popToPc = s.setDiag { s.diag with stackUnderflow := true }) := by
  unfold State.popToPc
  split
  · next a rest h => exact .inl ⟨a, rest, h, rfl⟩
  · next h => exact .inr ⟨h, rfl⟩

/-! Skips and flags. -/

theorem State.skipIf_eq (c : Bool) : s.skipIf c = s.setPc (if c then s.pc + 2 else s.pc) := by
  cases c <;> rfl

theorem State.setResultAndFlag_getV (x : Reg) (r : Byte) (f : Bool) (j : Reg) :
    (s.setResultAndFlag x r f).getV j = if j = 15 then flagByte f else if j = x then r else s.getV j := by
  simp [State.setResultAndFlag]

/-- A result and a flag change V[x] and VF, nothing else. -/
theorem State.setResultAndFlag_eq (x : Reg) (r : Byte) (f : Bool) :
    s.setResultAndFlag x r f = (s.setV x r).setV vf (flagByte f) := rfl

theorem toNat_sum8 (a b : Byte) : (sum8 a b).toNat = (a.toNat + b.toNat) % 256 := by simp [sum8]

theorem toNat_diff8 (a b : Byte) : ((diff8 a b).toNat : Int) = ((a.toNat : Int) - b.toNat) % 256 := by
  simp [diff8, BitVec.toNat_ofInt]
  omega

theorem toNat_shiftRight1 (a : Byte) : (shiftRight1 a).toNat = a.toNat / 2 := by
  have := a.isLt
  simp [shiftRight1]
  omega

theorem toNat_shiftLeft1 (a : Byte) : (shiftLeft1 a).toNat = a.toNat * 2 % 256 := by simp [shiftLeft1]

theorem toNat_flagByte_lowBit (a : Byte) : (flagByte (lowBit a)).toNat = a.toNat % 2 := by
  have : lowBit a = decide (a.toNat % 2 = 1) := by simp [lowBit, BitVec.getLsbD, Nat.testBit_zero]
  rw [this]
  by_cases h : a.toNat % 2 = 1
  · simp [flagByte, h]
  · have : a.toNat % 2 = 0 := by omega
    simp [flagByte, this]

theorem toNat_flagByte_highBit (a : Byte) : (flagByte (highBit a)).toNat = a.toNat / 128 := by
  have ha := a.isLt
  have : highBit a = decide (128 ≤ a.toNat) := by
    rw [highBit, BitVec.getLsbD, Nat.testBit_eq_decide_div_mod_eq]
    exact decide_eq_decide.2 (by omega)
  rw [this]
  by_cases h : 128 ≤ a.toNat
  · simp only [flagByte, decide_eq_true h, if_true]; show 1 = _; omega
  · simp only [flagByte, decide_eq_false h]; show 0 = _; omega

/-! Fetch. -/

/-- The state in which the fetched instruction runs. -/
theorem State.afterFetch_eq : s.afterFetch =
    { s with pc := s.pc + 2, diag := ⟨false, false, false, decide (4095 ≤ s.pc.toNat)⟩ } := by
  rw [State.afterFetch, State.noteAccesses_eq]
  have : decide (2 ≠ 0 ∧ 4096 < s.pc.toNat + 2) = decide (4095 ≤ s.pc.toNat) := decide_eq_decide.2 (by omega)
  rw [this]
  rfl

/-! Keys. -/

/-- No key is lowest exactly when none is down. -/
theorem State.lowestKey_eq_none : s.lowestKey = none ↔ ∀ n, s.keyDownAt n = false := by
  unfold State.lowestKey
  rw [List.find?_eq_none]
  constructor
  · intro h n
    by_cases hn : n < 16
    · simpa using h ⟨n, hn⟩ (List.mem_finRange _)
    · exact dif_neg hn
  · intro h k _
    simp [h]

/-- The lowest key is down and every lower one is up. -/
theorem State.lowestKey_eq_some (k : KeyIndex) :
    s.lowestKey = some k ↔ s.keyDownAt k.val = true ∧ ∀ n, n < k.val → s.keyDownAt n = false := by
  unfold State.lowestKey
  rw [List.find?_eq_some_iff_getElem]
  constructor
  · rintro ⟨hk, m, hm, e, hlow⟩
    simp only [List.getElem_finRange] at e hlow
    have em : m = k.val := by rw [← e]; rfl
    refine ⟨hk, fun n hn => ?_⟩
    simpa using hlow n (by omega)
  · rintro ⟨hk, hlow⟩
    refine ⟨hk, k.val, by simp, by simp, fun j hj => ?_⟩
    simpa using hlow j hj

end Sys2Proof.Machine
end

