-- ==== Sys2Proof/Laws/Draw.lean ====
section
/-! SUPPORT. The draw engine in closed form: every pixel of the grid becomes old XOR sprite bit, and the collision flag is
raised exactly when a sprite bit meets a pixel that was on. -/

namespace Sys2Proof.Machine

/-- The sprite bit that one row byte drawn at column `x0` puts on column `c`, counting only columns `x0 + lo` and up. -/
def rowBit (b : Byte) (x0 lo c : Nat) : Bool := decide (x0 + lo ≤ c ∧ c < x0 + 8) && b.getLsbD (7 - (c - x0))

/-- The sprite bit that rows `bs` drawn at (`y0`, `x0`) put on row `r`, column `c`. -/
def rowsBit (bs : List Byte) (x0 y0 r c : Nat) : Bool := decide (y0 ≤ r) && rowBit (bs.getD (r - y0) 0#8) x0 0 c

theorem rowBit_zero (x0 lo c : Nat) : rowBit 0#8 x0 lo c = false := by simp [rowBit]

theorem plot_get (d : Blit) (py px : Nat) {r c : Nat} (hr : r < 32) (hc : c < 64) :
    (plot d py px).1.get r c = (d.1.get r c ^^ decide (r = py ∧ c = px)) := by
  unfold plot
  split
  · next h =>
    rw [Framebuffer.get_set]
    by_cases e : r = py ∧ c = px
    · obtain ⟨rfl, rfl⟩ := e; simp [hr, hc]
    · rw [if_neg (by omega), decide_eq_false e, Bool.xor_false]
  · next h =>
    rw [decide_eq_false (by omega), Bool.xor_false]

theorem plot_hit (d : Blit) (py px : Nat) : (plot d py px).2 = (d.2 || d.1.get py px) := by
  unfold plot
  split
  · rfl
  · next h => rw [Framebuffer.get_off_grid _ h, Bool.or_false]

/-- Extending the drawn columns of a row by one. -/
theorem rowBit_step (b : Byte) (x0 n c : Nat) (hn : n < 8) :
    rowBit b x0 (8 - (n + 1)) c = (rowBit b x0 (8 - n) c || (decide (c = x0 + (7 - n)) && b.getLsbD n)) := by
  unfold rowBit
  by_cases e : c = x0 + (7 - n)
  · have h1 : x0 + (8 - (n + 1)) ≤ c ∧ c < x0 + 8 := by omega
    have h2 : ¬ (x0 + (8 - n) ≤ c ∧ c < x0 + 8) := by omega
    have h3 : 7 - (c - x0) = n := by omega
    rw [decide_eq_true h1, decide_eq_false h2, decide_eq_true e, h3]
    simp
  · have h1 : decide (x0 + (8 - (n + 1)) ≤ c ∧ c < x0 + 8) = decide (x0 + (8 - n) ≤ c ∧ c < x0 + 8) :=
      decide_eq_decide.2 (by omega)
    rw [h1, decide_eq_false e]
    simp

/-- A column that is drawn now is not drawn later. -/
theorem rowBit_fresh (b : Byte) (x0 n : Nat) (hn : n < 8) : rowBit b x0 (8 - n) (x0 + (7 - n)) = false := by
  unfold rowBit
  rw [decide_eq_false (by omega), Bool.false_and]

theorem plotRow_get (b : Byte) (py x0 : Nat) : ∀ (n : Nat) (d : Blit), n ≤ 8 → ∀ {r c : Nat}, r < 32 → c < 64 →
    (plotRow b py x0 n d).1.get r c = (d.1.get r c ^^ (decide (r = py) && rowBit b x0 (8 - n) c)) := by
  intro n
  induction n with
  | zero =>
    intro d _ r c _ _
    have : rowBit b x0 8 c = false := by unfold rowBit; rw [decide_eq_false (by omega), Bool.false_and]
    simp [plotRow, this]
  | succ n ih =>
    intro d hn r c hr hc
    rw [plotRow, ih _ (by omega) hr hc, rowBit_step b x0 n c (by omega)]
    by_cases hb : b.getLsbD n = true
    · rw [if_pos hb, plot_get d py _ hr hc, hb]
      by_cases e : c = x0 + (7 - n)
      · subst e
        rw [rowBit_fresh b x0 n (by omega)]
        simp
      · simp [e]
    · rw [if_neg hb, Bool.not_eq_true] at *
      simp [hb]

theorem plotRow_hit (b : Byte) (py x0 : Nat) : ∀ (n : Nat) (d : Blit), n ≤ 8 →
    ((plotRow b py x0 n d).2 = true ↔
      d.2 = true ∨ ∃ c, rowBit b x0 (8 - n) c = true ∧ d.1.get py c = true) := by
  intro n
  induction n with
  | zero =>
    intro d _
    have : ∀ c, rowBit b x0 8 c = false := fun c => by
      unfold rowBit; rw [decide_eq_false (by omega), Bool.false_and]
    simp [plotRow, this]
  | succ n ih =>
    intro d hn
    rw [plotRow, ih _ (by omega)]
    by_cases hb : b.getLsbD n = true
    · rw [if_pos hb, plot_hit]
      have hstep : ∀ c, rowBit b x0 (8 - (n + 1)) c = true ↔
          rowBit b x0 (8 - n) c = true ∨ c = x0 + (7 - n) := fun c => by
        rw [rowBit_step b x0 n c (by omega), hb]
        simp
      have hsame : ∀ c, rowBit b x0 (8 - n) c = true →
          (plot d py (x0 + (7 - n))).1.get py c = d.1.get py c := fun c hc => by
        have hne : c ≠ x0 + (7 - n) := fun e => by
          rw [e, rowBit_fresh b x0 n (by omega)] at hc; cases hc
        by_cases hg : py < 32 ∧ c < 64
        · rw [plot_get d py _ hg.1 hg.2]
          simp [hne]
        · rw [Framebuffer.get_off_grid _ hg, Framebuffer.get_off_grid _ hg]
      constructor
      · rintro (h | ⟨c, hc, hg⟩)
        · rcases Bool.or_eq_true _ _ ▸ h with h | h
          · exact .inl h
          · exact .inr ⟨_, (hstep _).2 (.inr rfl), h⟩
        · exact .inr ⟨c, (hstep c).2 (.inl hc), hsame c hc ▸ hg⟩
      · rintro (h | ⟨c, hc, hg⟩)
        · exact .inl (by rw [h, Bool.true_or])
        · rcases (hstep c).1 hc with hc | rfl
          · exact .inr ⟨c, hc, (hsame c hc).symm ▸ hg⟩
          · exact .inl (by rw [hg, Bool.or_true])
    · rw [if_neg hb]
      have hstep : ∀ c, rowBit b x0 (8 - (n + 1)) c = rowBit b x0 (8 - n) c := fun c => by
        rw [rowBit_step b x0 n c (by omega)]
        simp [hb]
      simp only [hstep]

theorem rowsBit_cons (b : Byte) (bs : List Byte) (x0 y0 r c : Nat) : rowsBit (b :: bs) x0 y0 r c =
    ((decide (r = y0) && rowBit b x0 0 c) || rowsBit bs x0 (y0 + 1) r c) := by
  unfold rowsBit
  by_cases h : r = y0
  · subst h
    have : ¬ (r + 1 ≤ r) := by omega
    simp [this]
  · by_cases h' : y0 ≤ r
    · have e : r - y0 = (r - (y0 + 1)) + 1 := by omega
      have h2 : y0 + 1 ≤ r := by omega
      simp [h, h', h2, e]
    · have h2 : ¬ (y0 + 1 ≤ r) := by omega
      simp [h, h', h2]

theorem rowsBit_above (bs : List Byte) (x0 y0 c : Nat) : rowsBit bs x0 (y0 + 1) y0 c = false := by
  unfold rowsBit
  rw [decide_eq_false (by omega), Bool.false_and]

/-- Every pixel of the grid becomes old XOR sprite bit. -/
theorem plotRows_get (x0 : Nat) (bs : List Byte) : ∀ (y0 : Nat) (d : Blit) {r c : Nat}, r < 32 → c < 64 →
    (plotRows x0 bs y0 d).1.get r c = (d.1.get r c ^^ rowsBit bs x0 y0 r c) := by
  induction bs with
  | nil => intro y0 d r c _ _; simp [plotRows, rowsBit, rowBit_zero]
  | cons b bs ih =>
    intro y0 d r c hr hc
    rw [plotRows, ih _ _ hr hc, plotRow_get b y0 x0 8 d (Nat.le_refl _) hr hc, rowsBit_cons]
    by_cases h : r = y0
    · subst h
      rw [rowsBit_above]
      simp
    · simp [h]

/-- The collision flag is raised exactly when a set sprite bit falls on a pixel that was on. -/
theorem plotRows_hit (x0 : Nat) (bs : List Byte) : ∀ (y0 : Nat) (d : Blit),
    ((plotRows x0 bs y0 d).2 = true ↔
      d.2 = true ∨ ∃ r c, rowsBit bs x0 y0 r c = true ∧ d.1.get r c = true) := by
  induction bs with
  | nil => intro y0 d; simp [plotRows, rowsBit, rowBit_zero]
  | cons b bs ih =>
    intro y0 d
    rw [plotRows, ih, plotRow_hit b y0 x0 8 d (Nat.le_refl _)]
    have hsame : ∀ r c, rowsBit bs x0 (y0 + 1) r c = true →
        (plotRow b y0 x0 8 d).1.get r c = d.1.get r c := fun r c h => by
      have hne : r ≠ y0 := fun e => by rw [e, rowsBit_above] at h; cases h
      by_cases hg : r < 32 ∧ c < 64
      · rw [plotRow_get b y0 x0 8 d (Nat.le_refl _) hg.1 hg.2]
        simp [hne]
      · rw [Framebuffer.get_off_grid _ hg, Framebuffer.get_off_grid _ hg]
    have hcons : ∀ r c, rowsBit (b :: bs) x0 y0 r c = true ↔
        (r = y0 ∧ rowBit b x0 0 c = true) ∨ rowsBit bs x0 (y0 + 1) r c = true := fun r c => by
      rw [rowsBit_cons]; simp
    constructor
    · rintro ((h | ⟨c, hc, hg⟩) | ⟨r, c, hb, hg⟩)
      · exact .inl h
      · exact .inr ⟨y0, c, (hcons y0 c).2 (.inl ⟨rfl, hc⟩), hg⟩
      · exact .inr ⟨r, c, (hcons r c).2 (.inr hb), hsame r c hb ▸ hg⟩
    · rintro (h | ⟨r, c, hb, hg⟩)
      · exact .inl (.inl h)
      · rcases (hcons r c).1 hb with ⟨rfl, hc⟩ | hb
        · exact .inl (.inr ⟨c, hc, hg⟩)
        · exact .inr ⟨r, c, hb, (hsame r c hb).symm ▸ hg⟩

/-- The sprite's row bytes: `n` bytes from I on. -/
theorem State.spriteRows_getD (s : State) (n k : Nat) :
    (s.spriteRows n).getD k 0#8 = if k < n then s.readByte (s.i.toNat + k) else 0#8 := by
  unfold State.spriteRows State.dataBase
  by_cases h : k < n <;> simp [h]

end Sys2Proof.Machine
end

