-- ==== Sys2Proof/Laws/PerInstr.lean ====
section
/-! SUPPORT. Statements made instruction by instruction: CanonicalWord, the word an instruction is encoded as matches its
row of the opcode map under the row's mask (spec/30_encoding.md R96, R104), and Assembles, the line an instruction is
written as stands for it (R101). -/

namespace Sys2Proof.Laws

/-- The mask of an instruction's row (R96): the bits its format compares. -/
def rowMask : Instr → Word
  | .cls | .ret | .skpVx _ | .sknpVx _ | .ldVxDT _ | .ldVxK _ | .ldDTVx _ | .ldSTVx _ | .addIVx _ | .ldFVx _
  | .ldBVx _ | .ldMemIVx _ | .ldVxMemI _ => 0xF0FF#16
  | .jpNnn _ | .callNnn _ | .seVxKk _ _ | .sneVxKk _ _ | .seVxVy _ _ | .ldVxKk _ _ | .addVxKk _ _
  | .sneVxVy _ _ | .ldINnn _ | .jpV0Nnn _ | .rndVxKk _ _ | .drwVxVyN _ _ _ => 0xF000#16
  | .ldVxVy _ _ | .orVxVy _ _ | .andVxVy _ _ | .xorVxVy _ _ | .addVxVy _ _ | .subVxVy _ _ | .shrVx _
  | .subnVxVy _ _ | .shlVx _ => 0xF00F#16

/-- The match of an instruction's row (R96). -/
def rowMatch : Instr → Word
  | .cls => 0x00E0#16
  | .ret => 0x00EE#16
  | .jpNnn _ => 0x1000#16
  | .callNnn _ => 0x2000#16
  | .seVxKk _ _ => 0x3000#16
  | .sneVxKk _ _ => 0x4000#16
  | .seVxVy _ _ => 0x5000#16
  | .ldVxKk _ _ => 0x6000#16
  | .addVxKk _ _ => 0x7000#16
  | .ldVxVy _ _ => 0x8000#16
  | .orVxVy _ _ => 0x8001#16
  | .andVxVy _ _ => 0x8002#16
  | .xorVxVy _ _ => 0x8003#16
  | .addVxVy _ _ => 0x8004#16
  | .subVxVy _ _ => 0x8005#16
  | .shrVx _ => 0x8006#16
  | .subnVxVy _ _ => 0x8007#16
  | .shlVx _ => 0x800E#16
  | .sneVxVy _ _ => 0x9000#16
  | .ldINnn _ => 0xA000#16
  | .jpV0Nnn _ => 0xB000#16
  | .rndVxKk _ _ => 0xC000#16
  | .drwVxVyN _ _ _ => 0xD000#16
  | .skpVx _ => 0xE09E#16
  | .sknpVx _ => 0xE0A1#16
  | .ldVxDT _ => 0xF007#16
  | .ldVxK _ => 0xF00A#16
  | .ldDTVx _ => 0xF015#16
  | .ldSTVx _ => 0xF018#16
  | .addIVx _ => 0xF01E#16
  | .ldFVx _ => 0xF029#16
  | .ldBVx _ => 0xF033#16
  | .ldMemIVx _ => 0xF055#16
  | .ldVxMemI _ => 0xF065#16

/-- A word decodes to an instruction only if it matches the instruction's row. -/
theorem decode_matches {w : Word} {i : Instr} (h : decode w = .instr i) : w &&& rowMask i = rowMatch i := by
  unfold decode at h
  split at h
  case h_1 ho =>
    unfold decode0 at h
    split at h <;> cases h
    all_goals exact (and_F0FF_iff w _ _).2 ⟨ho, ‹_›⟩
  case h_9 ho =>
    unfold decode8 at h
    split at h <;> cases h
    all_goals exact (and_F00F_iff w _ _).2 ⟨ho, ‹_›⟩
  case h_15 ho =>
    unfold decodeE at h
    split at h <;> cases h
    all_goals exact (and_F0FF_iff w _ _).2 ⟨ho, ‹_›⟩
  case h_16 =>
    have ho : opField w = 0xF#4 := opField_F ‹_› ‹_› ‹_› ‹_› ‹_› ‹_› ‹_› ‹_› ‹_› ‹_› ‹_› ‹_› ‹_› ‹_› ‹_›
    unfold decodeF at h
    split at h <;> cases h
    all_goals exact (and_F0FF_iff w _ _).2 ⟨ho, ‹_›⟩
  all_goals
    cases h
    exact (and_F000_iff w _).2 ‹_›

/-! Family CanonicalWord. -/

namespace CanonicalWord

/-- The encoded word matches the instruction's row under the row's mask. -/
def Statement (i : Instr) : Prop := encode i &&& rowMask i = rowMatch i

theorem cls : Statement (.cls) :=
  (and_F0FF_iff _ 0x0#4 0xE0#8).2 ⟨by simp [encode], by simp [encode]⟩
theorem ret : Statement (.ret) :=
  (and_F0FF_iff _ 0x0#4 0xEE#8).2 ⟨by simp [encode], by simp [encode]⟩
theorem jpNnn (nnn : Imm12) : Statement (.jpNnn nnn) :=
  (and_F000_iff _ 0x1#4).2 (by simp [encode])
theorem callNnn (nnn : Imm12) : Statement (.callNnn nnn) :=
  (and_F000_iff _ 0x2#4).2 (by simp [encode])
theorem seVxKk (x : Reg) (kk : Imm8) : Statement (.seVxKk x kk) :=
  (and_F000_iff _ 0x3#4).2 (by simp [encode])
theorem sneVxKk (x : Reg) (kk : Imm8) : Statement (.sneVxKk x kk) :=
  (and_F000_iff _ 0x4#4).2 (by simp [encode])
theorem seVxVy (x y : Reg) : Statement (.seVxVy x y) :=
  (and_F000_iff _ 0x5#4).2 (by simp [encode])
theorem ldVxKk (x : Reg) (kk : Imm8) : Statement (.ldVxKk x kk) :=
  (and_F000_iff _ 0x6#4).2 (by simp [encode])
theorem addVxKk (x : Reg) (kk : Imm8) : Statement (.addVxKk x kk) :=
  (and_F000_iff _ 0x7#4).2 (by simp [encode])
theorem ldVxVy (x y : Reg) : Statement (.ldVxVy x y) :=
  (and_F00F_iff _ 0x8#4 0x0#4).2 ⟨by simp [encode], by simp [encode]⟩
theorem orVxVy (x y : Reg) : Statement (.orVxVy x y) :=
  (and_F00F_iff _ 0x8#4 0x1#4).2 ⟨by simp [encode], by simp [encode]⟩
theorem andVxVy (x y : Reg) : Statement (.andVxVy x y) :=
  (and_F00F_iff _ 0x8#4 0x2#4).2 ⟨by simp [encode], by simp [encode]⟩
theorem xorVxVy (x y : Reg) : Statement (.xorVxVy x y) :=
  (and_F00F_iff _ 0x8#4 0x3#4).2 ⟨by simp [encode], by simp [encode]⟩
theorem addVxVy (x y : Reg) : Statement (.addVxVy x y) :=
  (and_F00F_iff _ 0x8#4 0x4#4).2 ⟨by simp [encode], by simp [encode]⟩
theorem subVxVy (x y : Reg) : Statement (.subVxVy x y) :=
  (and_F00F_iff _ 0x8#4 0x5#4).2 ⟨by simp [encode], by simp [encode]⟩
theorem shrVx (x : Reg) : Statement (.shrVx x) :=
  (and_F00F_iff _ 0x8#4 0x6#4).2 ⟨by simp [encode], by simp [encode]⟩
theorem subnVxVy (x y : Reg) : Statement (.subnVxVy x y) :=
  (and_F00F_iff _ 0x8#4 0x7#4).2 ⟨by simp [encode], by simp [encode]⟩
theorem shlVx (x : Reg) : Statement (.shlVx x) :=
  (and_F00F_iff _ 0x8#4 0xE#4).2 ⟨by simp [encode], by simp [encode]⟩
theorem sneVxVy (x y : Reg) : Statement (.sneVxVy x y) :=
  (and_F000_iff _ 0x9#4).2 (by simp [encode])
theorem ldINnn (nnn : Imm12) : Statement (.ldINnn nnn) :=
  (and_F000_iff _ 0xA#4).2 (by simp [encode])
theorem jpV0Nnn (nnn : Imm12) : Statement (.jpV0Nnn nnn) :=
  (and_F000_iff _ 0xB#4).2 (by simp [encode])
theorem rndVxKk (x : Reg) (kk : Imm8) : Statement (.rndVxKk x kk) :=
  (and_F000_iff _ 0xC#4).2 (by simp [encode])
theorem drwVxVyN (x y : Reg) (n : Imm4) : Statement (.drwVxVyN x y n) :=
  (and_F000_iff _ 0xD#4).2 (by simp [encode])
theorem skpVx (x : Reg) : Statement (.skpVx x) :=
  (and_F0FF_iff _ 0xE#4 0x9E#8).2 ⟨by simp [encode], by simp [encode]⟩
theorem sknpVx (x : Reg) : Statement (.sknpVx x) :=
  (and_F0FF_iff _ 0xE#4 0xA1#8).2 ⟨by simp [encode], by simp [encode]⟩
theorem ldVxDT (x : Reg) : Statement (.ldVxDT x) :=
  (and_F0FF_iff _ 0xF#4 0x07#8).2 ⟨by simp [encode], by simp [encode]⟩
theorem ldVxK (x : Reg) : Statement (.ldVxK x) :=
  (and_F0FF_iff _ 0xF#4 0x0A#8).2 ⟨by simp [encode], by simp [encode]⟩
theorem ldDTVx (x : Reg) : Statement (.ldDTVx x) :=
  (and_F0FF_iff _ 0xF#4 0x15#8).2 ⟨by simp [encode], by simp [encode]⟩
theorem ldSTVx (x : Reg) : Statement (.ldSTVx x) :=
  (and_F0FF_iff _ 0xF#4 0x18#8).2 ⟨by simp [encode], by simp [encode]⟩
theorem addIVx (x : Reg) : Statement (.addIVx x) :=
  (and_F0FF_iff _ 0xF#4 0x1E#8).2 ⟨by simp [encode], by simp [encode]⟩
theorem ldFVx (x : Reg) : Statement (.ldFVx x) :=
  (and_F0FF_iff _ 0xF#4 0x29#8).2 ⟨by simp [encode], by simp [encode]⟩
theorem ldBVx (x : Reg) : Statement (.ldBVx x) :=
  (and_F0FF_iff _ 0xF#4 0x33#8).2 ⟨by simp [encode], by simp [encode]⟩
theorem ldMemIVx (x : Reg) : Statement (.ldMemIVx x) :=
  (and_F0FF_iff _ 0xF#4 0x55#8).2 ⟨by simp [encode], by simp [encode]⟩
theorem ldVxMemI (x : Reg) : Statement (.ldVxMemI x) :=
  (and_F0FF_iff _ 0xF#4 0x65#8).2 ⟨by simp [encode], by simp [encode]⟩

end CanonicalWord

/-! Family Assembles. -/

/-! Each range check answers exactly the operand whose number was written. -/

theorem checkReg_eq_some {x : Nat} {r : Reg} : checkReg x = some r ↔ x = r.val := by
  simp only [checkReg, Option.dite_none_right_eq_some, Option.some.injEq, Fin.ext_iff]
  exact ⟨fun ⟨_, e⟩ => e, fun e => ⟨e ▸ r.isLt, e⟩⟩

theorem checkNnn_eq_some {v : Nat} {n : Imm12} : checkNnn v = some n ↔ v = n.toNat := by
  simp only [checkNnn, Option.ite_none_right_eq_some, Option.some.injEq, ← BitVec.toNat_inj, BitVec.toNat_ofNat]
  omega

theorem checkKk_eq_some {v : Nat} {n : Imm8} : checkKk v = some n ↔ v = n.toNat := by
  simp only [checkKk, Option.ite_none_right_eq_some, Option.some.injEq, ← BitVec.toNat_inj, BitVec.toNat_ofNat]
  omega

theorem checkN_eq_some {v : Nat} {n : Imm4} : checkN v = some n ↔ v = n.toNat := by
  simp only [checkN, Option.ite_none_right_eq_some, Option.some.injEq, ← BitVec.toNat_inj, BitVec.toNat_ofNat]
  omega

/-- The range checks accept every operand an instruction holds. -/
@[simp] theorem checkReg_val (x : Reg) : checkReg x.val = some x := checkReg_eq_some.2 rfl
@[simp] theorem checkNnn_toNat (v : Imm12) : checkNnn v.toNat = some v := checkNnn_eq_some.2 rfl
@[simp] theorem checkKk_toNat (v : Imm8) : checkKk v.toNat = some v := checkKk_eq_some.2 rfl
@[simp] theorem checkN_toNat (v : Imm4) : checkN v.toNat = some v := checkN_eq_some.2 rfl

namespace Assembles

/-- The line an instruction is written as stands for it. -/
def Statement (i : Instr) : Prop := i.toLine.toInstr? = some i

theorem cls : Statement (.cls) :=
  rfl
theorem ret : Statement (.ret) :=
  rfl
theorem jpNnn (nnn : Imm12) : Statement (.jpNnn nnn) := by
  simp [Statement, Instr.toLine, Line.toInstr?, withNnn]
theorem callNnn (nnn : Imm12) : Statement (.callNnn nnn) := by
  simp [Statement, Instr.toLine, Line.toInstr?, withNnn]
theorem seVxKk (x : Reg) (kk : Imm8) : Statement (.seVxKk x kk) := by
  simp [Statement, Instr.toLine, Line.toInstr?, withRegKk]
theorem sneVxKk (x : Reg) (kk : Imm8) : Statement (.sneVxKk x kk) := by
  simp [Statement, Instr.toLine, Line.toInstr?, withRegKk]
theorem seVxVy (x y : Reg) : Statement (.seVxVy x y) := by
  simp [Statement, Instr.toLine, Line.toInstr?, withRegReg]
theorem ldVxKk (x : Reg) (kk : Imm8) : Statement (.ldVxKk x kk) := by
  simp [Statement, Instr.toLine, Line.toInstr?, withRegKk]
theorem addVxKk (x : Reg) (kk : Imm8) : Statement (.addVxKk x kk) := by
  simp [Statement, Instr.toLine, Line.toInstr?, withRegKk]
theorem ldVxVy (x y : Reg) : Statement (.ldVxVy x y) := by
  simp [Statement, Instr.toLine, Line.toInstr?, withRegReg]
theorem orVxVy (x y : Reg) : Statement (.orVxVy x y) := by
  simp [Statement, Instr.toLine, Line.toInstr?, withRegReg]
theorem andVxVy (x y : Reg) : Statement (.andVxVy x y) := by
  simp [Statement, Instr.toLine, Line.toInstr?, withRegReg]
theorem xorVxVy (x y : Reg) : Statement (.xorVxVy x y) := by
  simp [Statement, Instr.toLine, Line.toInstr?, withRegReg]
theorem addVxVy (x y : Reg) : Statement (.addVxVy x y) := by
  simp [Statement, Instr.toLine, Line.toInstr?, withRegReg]
theorem subVxVy (x y : Reg) : Statement (.subVxVy x y) := by
  simp [Statement, Instr.toLine, Line.toInstr?, withRegReg]
theorem shrVx (x : Reg) : Statement (.shrVx x) := by
  simp [Statement, Instr.toLine, Line.toInstr?, withReg]
theorem subnVxVy (x y : Reg) : Statement (.subnVxVy x y) := by
  simp [Statement, Instr.toLine, Line.toInstr?, withRegReg]
theorem shlVx (x : Reg) : Statement (.shlVx x) := by
  simp [Statement, Instr.toLine, Line.toInstr?, withReg]
theorem sneVxVy (x y : Reg) : Statement (.sneVxVy x y) := by
  simp [Statement, Instr.toLine, Line.toInstr?, withRegReg]
theorem ldINnn (nnn : Imm12) : Statement (.ldINnn nnn) := by
  simp [Statement, Instr.toLine, Line.toInstr?, withNnn]
theorem jpV0Nnn (nnn : Imm12) : Statement (.jpV0Nnn nnn) := by
  simp [Statement, Instr.toLine, Line.toInstr?, withNnn]
theorem rndVxKk (x : Reg) (kk : Imm8) : Statement (.rndVxKk x kk) := by
  simp [Statement, Instr.toLine, Line.toInstr?, withRegKk]
theorem drwVxVyN (x y : Reg) (n : Imm4) : Statement (.drwVxVyN x y n) := by
  simp [Statement, Instr.toLine, Line.toInstr?]
theorem skpVx (x : Reg) : Statement (.skpVx x) := by
  simp [Statement, Instr.toLine, Line.toInstr?, withReg]
theorem sknpVx (x : Reg) : Statement (.sknpVx x) := by
  simp [Statement, Instr.toLine, Line.toInstr?, withReg]
theorem ldVxDT (x : Reg) : Statement (.ldVxDT x) := by
  simp [Statement, Instr.toLine, Line.toInstr?, withReg]
theorem ldVxK (x : Reg) : Statement (.ldVxK x) := by
  simp [Statement, Instr.toLine, Line.toInstr?, withReg]
theorem ldDTVx (x : Reg) : Statement (.ldDTVx x) := by
  simp [Statement, Instr.toLine, Line.toInstr?, withReg]
theorem ldSTVx (x : Reg) : Statement (.ldSTVx x) := by
  simp [Statement, Instr.toLine, Line.toInstr?, withReg]
theorem addIVx (x : Reg) : Statement (.addIVx x) := by
  simp [Statement, Instr.toLine, Line.toInstr?, withReg]
theorem ldFVx (x : Reg) : Statement (.ldFVx x) := by
  simp [Statement, Instr.toLine, Line.toInstr?, withReg]
theorem ldBVx (x : Reg) : Statement (.ldBVx x) := by
  simp [Statement, Instr.toLine, Line.toInstr?, withReg]
theorem ldMemIVx (x : Reg) : Statement (.ldMemIVx x) := by
  simp [Statement, Instr.toLine, Line.toInstr?, withReg]
theorem ldVxMemI (x : Reg) : Statement (.ldVxMemI x) := by
  simp [Statement, Instr.toLine, Line.toInstr?, withReg]

end Assembles

end Sys2Proof.Laws
end

