-- ==== Sys2Proof/Laws/Step.lean ====
section
/-! SUPPORT. What every instruction does alike (it completes, touches no key, keeps the invariant, sets which flag of diag),
what no instruction but the key instructions and LD ST sees (keys and ST), the fetch at the end of memory, the placed
word, and the host operations on timers and keys. -/

namespace Sys2Proof.Machine

/-- Every instruction completes, leaves the keys alone, and keeps the invariant. -/
theorem exec_next (i : Instr) (s : State) : ∃ t, exec i s = .next t ∧ t.key = s.key ∧ (s.Inv → t.Inv) := by
  cases i
  case ldVxK x =>
    simp only [exec, execLdVxK]
    cases h : s.lowestKey <;> exact ⟨_, rfl, rfl, id⟩
  case ldBVx x =>
    obtain ⟨m, hm⟩ := State.writeBytes_eq (bcdDigits (s.getV x)) s s.dataBase
    exact ⟨_, rfl, by rw [hm]; rfl, fun hs => ⟨by rw [hm]; exact hs.1, State.writeBytes_wf _ _ _ hs.2⟩⟩
  case ldMemIVx x =>
    obtain ⟨m, hm⟩ := State.writeBytes_eq (s.regBytes x) s s.dataBase
    exact ⟨_, rfl, by rw [hm]; rfl, fun hs => ⟨by rw [hm]; exact hs.1, State.writeBytes_wf _ _ _ hs.2⟩⟩
  case ldVxMemI x =>
    obtain ⟨v, o, hm⟩ := State.loadRegs_eq (regsUpTo x) s s.dataBase
    exact ⟨_, rfl, by rw [hm]; rfl, by rw [hm]; exact id⟩
  case drwVxVyN x y n =>
    exact ⟨_, rfl, by rw [State.noteAccesses_eq]; rfl, by rw [State.noteAccesses_eq]; exact id⟩
  case callNnn nnn =>
    refine ⟨_, rfl, ?_⟩
    obtain ⟨h, e⟩ | ⟨-, e⟩ := s.push_cases s.pc <;> rw [e]
    · exact ⟨rfl, fun hs => ⟨h, hs.2⟩⟩
    · exact ⟨rfl, id⟩
  case ret =>
    refine ⟨_, rfl, ?_⟩
    obtain ⟨a, rest, h, e⟩ | ⟨-, e⟩ := s.popToPc_cases <;> rw [e]
    · refine ⟨rfl, fun hs => ⟨?_, hs.2⟩⟩
      have hl := hs.1
      rw [h, List.length_cons] at hl
      exact Nat.le_of_succ_le hl
    · exact ⟨rfl, id⟩
  all_goals
    refine ⟨_, rfl, ?_⟩
    try rw [State.skipIf_eq]
    exact ⟨rfl, id⟩

/-- Which flags of diag an instruction raises: CALL the overflow, RET the underflow, a data byte out of bounds MEM_OOB. -/
theorem exec_diag (i : Instr) (s : State) : ∃ t, exec i s = .next t ∧
    t.diag.unknownOpcode = s.diag.unknownOpcode ∧
    (t.diag.stackOverflow = true ↔ s.diag.stackOverflow = true ∨ (∃ nnn, i = .callNnn nnn) ∧ 16 ≤ s.depth) ∧
    (t.diag.stackUnderflow = true ↔ s.diag.stackUnderflow = true ∨ i = .ret ∧ s.depth = 0) ∧
    (t.diag.memOob = true ↔ s.diag.memOob = true ∨ dataBytes i ≠ 0 ∧ 4096 < s.i.toNat + dataBytes i) := by
  have hb : s.dataBase = s.i.toNat := rfl
  cases i
  case ldVxK x =>
    simp only [exec, execLdVxK]
    cases h : s.lowestKey <;> exact ⟨_, rfl, by simp [dataBytes]⟩
  case ldBVx x =>
    obtain ⟨m, hm⟩ := State.writeBytes_eq (bcdDigits (s.getV x)) s s.dataBase
    exact ⟨_, rfl, by rw [hm, hb]; simp [dataBytes, bcdDigits]⟩
  case ldMemIVx x =>
    obtain ⟨m, hm⟩ := State.writeBytes_eq (s.regBytes x) s s.dataBase
    exact ⟨_, rfl, by rw [State.setI_diag, hm, hb]; simp [dataBytes, State.regBytes_length]⟩
  case ldVxMemI x =>
    refine ⟨_, rfl, ?_⟩
    rw [State.setI_diag, State.loadRegs_memOob, regsUpTo_any_oob, hb]
    simp [dataBytes]
    rw [show 4096 ≤ s.i.toNat + x.val ↔ 4096 < s.i.toNat + (x.val + 1) by omega]
  case drwVxVyN x y n => exact ⟨_, rfl, by rw [State.noteAccesses_eq, hb]; simp [dataBytes]⟩
  case callNnn nnn =>
    refine ⟨_, rfl, ?_⟩
    obtain ⟨h, e⟩ | ⟨h, e⟩ := s.push_cases s.pc <;> rw [e] <;> simp [dataBytes, State.depth, h]
  case ret =>
    refine ⟨_, rfl, ?_⟩
    obtain ⟨a, rest, h, e⟩ | ⟨h, e⟩ := s.popToPc_cases <;> rw [e] <;> simp [dataBytes, State.depth, h]
  all_goals
    refine ⟨_, rfl, ?_⟩
    try rw [State.skipIf_eq]
    simp [dataBytes, State.setResultAndFlag, rndWith]

/-! Memory accesses neither see nor touch the keys and ST. -/

variable (k : Vector Bool 16) (b : Byte)

theorem State.writeBytes_outside (bs : List Byte) : ∀ (s : State) (a : Nat),
    ({ s with key := k, st := b } : State).writeBytes a bs = { s.writeBytes a bs with key := k, st := b } := by
  induction bs with
  | nil => intros; rfl
  | cons c bs ih =>
    intro s a
    have : ({ s with key := k, st := b } : State).writeByte a c = { s.writeByte a c with key := k, st := b } := by
      rw [State.writeByte_eq, State.writeByte_eq]; rfl
    rw [State.writeBytes, this, ih]
    rfl

theorem State.loadRegs_outside (ks : List Reg) : ∀ (s : State) (a : Nat),
    ({ s with key := k, st := b } : State).loadRegs a ks = { s.loadRegs a ks with key := k, st := b } := by
  induction ks with
  | nil => intros; rfl
  | cons r ks ih =>
    intro s a
    rw [State.loadRegs, State.loadRegs, State.noteAccess_eq, State.noteAccess_eq]
    exact ih ((s.setDiag { s.diag with memOob := s.diag.memOob || decide (4096 ≤ a + r.val) }).setV r
      (s.readByte (a + r.val))) a

/-- No instruction but SKP, SKNP, LD Vx,K and LD ST,Vx sees or touches the keys and ST. -/
theorem exec_outside (i : Instr) (s : State) (hskp : ∀ x, i ≠ .skpVx x) (hsknp : ∀ x, i ≠ .sknpVx x)
    (hk : ∀ x, i ≠ .ldVxK x) (hst : ∀ x, i ≠ .ldSTVx x) :
    ∃ t, exec i s = .next t ∧ exec i { s with key := k, st := b } = .next { t with key := k, st := b } := by
  cases i
  case skpVx x => exact absurd rfl (hskp x)
  case sknpVx x => exact absurd rfl (hsknp x)
  case ldVxK x => exact absurd rfl (hk x)
  case ldSTVx x => exact absurd rfl (hst x)
  case ldBVx x => exact ⟨_, rfl, congrArg Host.Outcome.next (State.writeBytes_outside ..)⟩
  case ldMemIVx x =>
    exact ⟨_, rfl, congrArg (fun t => Host.Outcome.next (State.setI t (advancePast s.i x))) (State.writeBytes_outside ..)⟩
  case ldVxMemI x =>
    exact ⟨_, rfl, congrArg (fun t => Host.Outcome.next (State.setI t (advancePast s.i x))) (State.loadRegs_outside ..)⟩
  case drwVxVyN x y n =>
    refine ⟨_, rfl, ?_⟩
    simp only [exec, execDrwVxVyN, State.noteAccesses_eq]
    rfl
  case callNnn nnn =>
    by_cases h : s.depth < 16
    · exact ⟨(s.setStack (s.pc :: s.stack)).setPc (zext12 nnn),
        congrArg (fun t : State => Host.Outcome.next (t.setPc (zext12 nnn))) (if_pos h),
        congrArg (fun t : State => Host.Outcome.next (t.setPc (zext12 nnn))) (if_pos h)⟩
    · exact ⟨s.raiseStackOverflow.setPc (zext12 nnn),
        congrArg (fun t : State => Host.Outcome.next (t.setPc (zext12 nnn))) (if_neg h),
        congrArg (fun t : State => Host.Outcome.next (t.setPc (zext12 nnn))) (if_neg h)⟩
  case ret =>
    obtain ⟨v, i, pc, stack, dt, st, key, fb, mem, diag, draws⟩ := s
    cases stack <;> exact ⟨_, rfl, rfl⟩
  all_goals
    refine ⟨_, rfl, ?_⟩
    first
    | rfl
    | (simp only [exec, execSeVxKk, execSneVxKk, execSeVxVy, execSneVxVy, State.skipIf_eq]; rfl)

/-! The fetch. -/

/-- The low byte of a word fetched at the end of memory or beyond is 0x00. -/
theorem State.kkField_fetchWord_oob {s : State} (h : 4096 ≤ s.pc.toNat + 1) : kkField s.fetchWord = 0x00#8 := by
  rw [State.fetchWord, State.readWord, kkField_wordOfBytes, State.readByte_oob _ h]

/-- A word fetched outside memory is 0x0000. -/
theorem State.fetchWord_oob {s : State} (h : 4096 ≤ s.pc.toNat) : s.fetchWord = 0x0000#16 := by
  rw [State.fetchWord, State.readWord, State.readByte_oob _ h, State.readByte_oob _ (Nat.le_succ_of_le h)]
  rfl

/-- A placed word is the word the next Step fetches. -/
theorem State.fetchWord_placeWord (s : State) (w : Word) : (s.placeWord w).fetchWord = w := by
  have key : ∀ t : State, t.pc.toNat + 1 < 4096 → (t.writeBytes t.pc.toNat [hiByte w, loByte w]).fetchWord = w := by
    intro t ht
    obtain ⟨m, hm⟩ := State.writeBytes_eq [hiByte w, loByte w] t t.pc.toNat
    have hpc : (t.writeBytes t.pc.toNat [hiByte w, loByte w]).pc = t.pc := by rw [hm]; rfl
    rw [State.fetchWord, State.readWord, hpc, State.writeBytes_readByte, State.writeBytes_readByte,
      dif_pos (by simp; omega), dif_pos (by simp; omega)]
    simp
  unfold State.placeWord
  by_cases h : s.pc.toNat + 1 < Config.memSize
  · rw [if_pos h]
    exact key s h
  · rw [if_neg h]
    exact key _ (show (0x0200#16 : Word).toNat + 1 < 4096 by decide)

/-! Host operations. -/

theorem toNat_tick (b : Byte) : (tick b).toNat = b.toNat - 1 := by
  unfold tick
  split
  · next h => rw [h]; rfl
  · next h =>
    have h0 : b.toNat ≠ 0 := fun e => h (BitVec.eq_of_toNat_eq e)
    have := b.isLt
    simp [BitVec.toNat_sub]
    omega

/-- A code in range sets one key; any other changes nothing. -/
theorem State.setKeyCode_cases (s : State) (code : Int) (p : Bool) :
    (∃ k : KeyIndex, code = (k.val : Int) ∧ s.setKeyCode code p = s.setKey k p) ∨
      ((code < 0 ∨ 15 < code) ∧ s.setKeyCode code p = s) := by
  unfold State.setKeyCode keyOfCode
  by_cases h : 0 ≤ code ∧ code ≤ 15
  · rw [dif_pos h]
    exact .inl ⟨⟨code.toNat, by omega⟩, by simp; omega, rfl⟩
  · rw [dif_neg h]
    exact .inr ⟨by omega, rfl⟩

/-- What LoadProgram does. -/
theorem State.loadProgram_cases (font : Font) (s : State) (image : List Byte) :
    (3583 < image.length ∧ s.loadProgram font image = none) ∨
      (image.length ≤ 3583 ∧
        s.loadProgram font image = some ((s.resetOp font).setMem ((Memory.ofFont font).putAll 0x200 image))) := by
  by_cases h : 3583 < image.length
  · exact .inl ⟨h, if_pos h⟩
  · exact .inr ⟨by omega, if_neg h⟩

/-! Fonts and Reset. -/

theorem Memory.unlisted_high {a : Nat} (h : 80 ≤ a) : Memory.unlisted a = 0x00#8 := by
  unfold Memory.unlisted defaultFontByte
  rw [List.getD_eq_default _ _ h]

/-- A memory after Reset: FONT below 80, 0x00 from there on. -/
theorem Memory.get_ofFont (font : Font) (a : Nat) : (Memory.ofFont font).get a = if h : a < 80 then font[a] else 0x00#8 := by
  rw [Memory.ofFont, Memory.get_putAll]
  by_cases h : a < 80
  · rw [dif_pos (by simpa using h), dif_pos h]
    simp
  · rw [dif_neg (by simpa using h), dif_neg h]
    exact Memory.unlisted_high (by omega)

theorem Memory.ofFont_wf (font : Font) : Memory.wf (Memory.ofFont font) = true :=
  Memory.wf_putAll _ (by simp [Config.memSize]) rfl

/-- With the default FONT nothing is listed. -/
theorem Memory.ofFont_default : Memory.ofFont defaultFont = [] := by decide

@[simp] theorem State.resetWith_default : State.resetWith defaultFont = State.reset := by
  rw [State.resetWith, Memory.ofFont_default]
  rfl

theorem State.resetWith_Inv (font : Font) : (State.resetWith font).Inv := ⟨Nat.zero_le _, Memory.ofFont_wf font⟩

end Sys2Proof.Machine
end

