-- ==== Sys2Proof/Tests/Slice0.lean ====
section
/-! SUPPORT. The model's own tests: words written out from spec/30_encoding.md and the vectors V-DEC, V-ALU, V-CTL, V-MEM,
V-DRW, V-TK, V-STEP, V-HOST of spec/95_test_vectors.md (each expected value is the spec's), ill-formed lines for every
range check, and a witness for every statement that has hypotheses. -/

namespace Sys2Proof.Tests

open Sys2Proof.Machine

/-- The start state of a vector: the state after Reset, the elements under "start" set, the word placed at pc. -/
def start (w : Word) (set : State → State) : State := (set State.reset).placeWord w

/-- One Step, then a look at some fields. -/
def look {α : Type} (s : State) (f : State → α) : Option α :=
  match step s with
  | .next t => some (f t)
  | .fault _ => none
  | .refused _ => none

/-- One operation of the host, then a look at some fields and the reply. -/
def lookOp {α : Type} (l : Label) (s : State) (f : State → Reply → α) : Option α :=
  match perform defaultFont l s with
  | .next d => some (f d.state d.reply)
  | .fault _ => none
  | .refused _ => none

/-- stack15 and stack16 of the vectors: 0x0202, 0x0204, ..., the top first here. -/
def stackOf (n : Nat) : List Word := ((List.range n).map fun k => BitVec.ofNat 16 (0x0202 + 2 * k)).reverse

/-- The pixels that are on, as (row, column), of a band of rows. -/
def litIn (r0 n : Nat) (s : State) : List (Nat × Nat) :=
  ((List.range n).map fun r => ((List.range 64).filter fun c => s.pixel (r0 + r) c).map fun c => (r0 + r, c)).flatten

/-! Decoding: words from the spec. -/

theorem test_decode_family0 : decode 0x00E0 = .instr .cls ∧ decode 0x0AE0 = .instr .cls ∧ decode 0x00EE = .instr .ret ∧
    decode 0x07EE = .instr .ret := by decide
theorem test_decode_family0_unknown : [0x0000, 0x00E1, 0x00EF, 0x00FE, 0x0123, 0x0FFF].map decode =
    List.replicate 6 (.reject .unknown0) := by decide
theorem test_decode_jumps : decode 0x1234 = .instr (.jpNnn 0x234) ∧ decode 0x2FFF = .instr (.callNnn 0xFFF) ∧
    decode 0xB2FF = .instr (.jpV0Nnn 0x2FF) ∧ decode 0xA123 = .instr (.ldINnn 0x123) := by decide
theorem test_decode_immediate : decode 0x3A11 = .instr (.seVxKk 10 0x11) ∧ decode 0x4311 = .instr (.sneVxKk 3 0x11) ∧
    decode 0x6AFF = .instr (.ldVxKk 10 0xFF) ∧ decode 0x7F01 = .instr (.addVxKk 15 0x01) ∧
    decode 0xC30F = .instr (.rndVxKk 3 0x0F) := by decide
theorem test_decode_family5_9 : decode 0x5120 = .instr (.seVxVy 1 2) ∧ decode 0x512F = .instr (.seVxVy 1 2) ∧
    decode 0x9120 = .instr (.sneVxVy 1 2) ∧ decode 0x9127 = .instr (.sneVxVy 1 2) := by decide
theorem test_decode_family8 : [0x8120, 0x8121, 0x8122, 0x8123, 0x8124].map decode =
    [.instr (.ldVxVy 1 2), .instr (.orVxVy 1 2), .instr (.andVxVy 1 2), .instr (.xorVxVy 1 2), .instr (.addVxVy 1 2)] := by
  decide
theorem test_decode_family8_more : [0x8125, 0x8126, 0x8127, 0x812E].map decode =
    [.instr (.subVxVy 1 2), .instr (.shrVx 1), .instr (.subnVxVy 1 2), .instr (.shlVx 1)] := by decide
theorem test_decode_family8_unknown : [0x8128, 0x8129, 0x812A, 0x812B, 0x812C, 0x812D, 0x812F].map decode =
    List.replicate 7 (.reject .unknown8) := by decide
theorem test_decode_draw : decode 0xD125 = .instr (.drwVxVyN 1 2 5) ∧ decode 0xDF01 = .instr (.drwVxVyN 15 0 1) := by decide
theorem test_decode_familyE : decode 0xE19E = .instr (.skpVx 1) ∧ decode 0xE1A1 = .instr (.sknpVx 1) ∧
    [0xE19F, 0xE1A0, 0xE100, 0xE1FF].map decode = List.replicate 4 (.reject .unknownE) := by decide
theorem test_decode_familyF : [0xF107, 0xF10A, 0xF115, 0xF118, 0xF11E].map decode =
    [.instr (.ldVxDT 1), .instr (.ldVxK 1), .instr (.ldDTVx 1), .instr (.ldSTVx 1), .instr (.addIVx 1)] := by decide
theorem test_decode_familyF_more : [0xF129, 0xF133, 0xF155, 0xF165].map decode =
    [.instr (.ldFVx 1), .instr (.ldBVx 1), .instr (.ldMemIVx 1), .instr (.ldVxMemI 1)] := by decide
theorem test_decode_familyF_unknown : [0xF100, 0xF105, 0xF175, 0xF185, 0xF1FF, 0xF135].map decode =
    List.replicate 6 (.reject .unknownF) := by decide
theorem test_decode_zero_operands : [0x1000, 0x2000, 0x3000, 0x4000, 0xD000].map decode =
    [.instr (.jpNnn 0), .instr (.callNnn 0), .instr (.seVxKk 0 0), .instr (.sneVxKk 0 0), .instr (.drwVxVyN 0 0 0)] := by
  decide

/-- High byte first: the bytes 12 34 are the word 0x1234 (the document's S1). -/
theorem test_decode_bytes : decodeBytes [0x12#8, 0x34#8, 0x99#8] = .ok (.jpNnn 0x234, [0x99#8]) ∧
    decodeBytes [0x12#8] = .error .truncated := by decide
theorem test_decode_table_word : decodeTableWord 16 0x8124 = some (.addVxVy 1 2) ∧ decodeTableWord 16 0x812F = none := by
  decide

/-- Encoding, against the words of P2 and P3. -/
theorem test_encode : encode (.ldINnn 0x300) = 0xA300 ∧ encode (.ldVxKk 1 0xFE) = 0x61FE ∧ encode (.callNnn 0x20C) = 0x220C ∧
    encode (.ldVxMemI 2) = 0xF265 ∧ encode (.ldBVx 1) = 0xF133 ∧ encode .ret = 0x00EE ∧ encode (.drwVxVyN 1 2 5) = 0xD125 ∧
    encode (.shrVx 1) = 0x8106 ∧ encodeBytes (.jpNnn 0x20C) = [0x12#8, 0x0C#8] := by decide

/-! Well-formedness: each check refuses an ill-formed line (R101). -/

theorem test_line_register : (Line.mk .SKP [.V 15]).wellFormed = true ∧ (Line.mk .SKP [.V 16]).wellFormed = false := by decide
theorem test_line_second_register : (Line.mk .OR [.V 0, .V 15]).wellFormed = true ∧
    (Line.mk .OR [.V 0, .V 16]).wellFormed = false ∧ (Line.mk .OR [.V 16, .V 0]).wellFormed = false := by decide
theorem test_line_nnn : (Line.mk .CALL [.num 0xFFF]).wellFormed = true ∧
    (Line.mk .CALL [.num 0x1000]).wellFormed = false := by decide
theorem test_line_kk : (Line.mk .RND [.V 1, .num 0xFF]).wellFormed = true ∧
    (Line.mk .RND [.V 1, .num 0x100]).wellFormed = false := by decide
theorem test_line_n : (Line.mk .DRW [.V 1, .V 2, .num 15]).wellFormed = true ∧
    (Line.mk .DRW [.V 1, .V 2, .num 16]).wellFormed = false := by decide
theorem test_line_indexed_jump : (Line.mk .JP [.V 0, .num 0x300]).toInstr? = some (.jpV0Nnn 0x300) ∧
    (Line.mk .JP [.V 1, .num 0x300]).wellFormed = false := by decide
theorem test_line_shape : (Line.mk .SHR [.V 1, .V 2]).wellFormed = false ∧ (Line.mk .LD [.DT, .num 5]).wellFormed = false ∧
    (Line.mk .CLS [.V 0]).wellFormed = false := by decide

/-! Single Steps: register load, arithmetic, logic, random. -/

theorem test_ld_imm : look (start 0x6AFF id) (fun t => (t.getV 10, t.pc, t.diag)) = some (0xFF, 0x202, Diag.none) := by decide
theorem test_add_imm_no_flag : look (start 0x7001 (·.setV 0 0xFF)) (fun t => (t.getV 0, t.getV 15)) = some (0, 0) := by decide
theorem test_ld_reg : look (start 0x8120 (·.setV 2 0x2A)) (fun t => (t.getV 1, t.getV 2)) = some (0x2A, 0x2A) := by decide
theorem test_or : look (start 0x8121 fun s => ((s.setV 1 0xF0).setV 2 0x0F).setV 15 1) (fun t => (t.getV 1, t.getV 15)) =
    some (0xFF, 1) := by decide
theorem test_and : look (start 0x8122 fun s => ((s.setV 1 0xF3).setV 2 0x3F).setV 15 1) (fun t => (t.getV 1, t.getV 15)) =
    some (0x33, 1) := by decide
theorem test_xor : look (start 0x8123 fun s => ((s.setV 1 0xFF).setV 2 0x0F).setV 15 1) (fun t => (t.getV 1, t.getV 15)) =
    some (0xF0, 1) := by decide
theorem test_add_wraps : look (start 0x8124 fun s => (s.setV 1 0xFF).setV 2 0x01) (fun t => (t.getV 1, t.getV 15)) =
    some (0x00, 1) := by decide
theorem test_add_into_flag : look (start 0x8F14 fun s => (s.setV 15 0xFF).setV 1 0x02) (fun t => t.getV 15) = some 1 := by decide
theorem test_sub_borrow : look (start 0x8125 fun s => (s.setV 1 0x05).setV 2 0x07) (fun t => (t.getV 1, t.getV 15)) =
    some (0xFE, 0) := by decide
theorem test_sub_equal : look (start 0x8125 fun s => (s.setV 1 0x07).setV 2 0x07) (fun t => (t.getV 1, t.getV 15)) =
    some (0x00, 1) := by decide
theorem test_shr_ignores_y : look (start 0x8126 fun s => (s.setV 1 0x06).setV 2 0xFF) (fun t => (t.getV 1, t.getV 2, t.getV 15)) =
    some (0x03, 0xFF, 0) := by decide
theorem test_shr_flag_wins : look (start 0x8F06 (·.setV 15 0x03)) (fun t => t.getV 15) = some 1 := by decide
theorem test_subn : look (start 0x8127 fun s => (s.setV 1 0x05).setV 2 0x07) (fun t => (t.getV 1, t.getV 15)) =
    some (0x02, 1) := by decide
theorem test_subn_borrow : look (start 0x8127 fun s => (s.setV 1 0x07).setV 2 0x05) (fun t => (t.getV 1, t.getV 15)) =
    some (0xFE, 0) := by decide
theorem test_shl : look (start 0x810E (·.setV 1 0x81)) (fun t => (t.getV 1, t.getV 15)) = some (0x02, 1) := by decide
theorem test_shl_flag_wins : look (start 0x8F0E (·.setV 15 0x81)) (fun t => t.getV 15) = some 1 := by decide

/-- RND with the draw 0xA7 (V-ALU-42). -/
theorem test_rnd_mask : (rndWith 0xA7 3 0x0F State.reset).getV 3 = 0x07 := by decide
/-- RND with kk = 0 does not depend on the draw (V-ALU-43). -/
theorem test_rnd_zero : look (start 0xC300 (·.setV 3 0x09)) (fun t => (t.getV 3, t.draws)) = some (0x00, 1) := by
  have h : look (start 0xC300 (·.setV 3 0x09)) (fun t => (t.getV 3, t.draws)) = some (Config.rnd 0 &&& 0x00#8, 1) := rfl
  rw [h, BitVec.and_zero]
  rfl

/-! Control flow and the call stack. -/

theorem test_jp : look (start 0x1234 id) (fun t => t.pc) = some 0x234 := by decide
theorem test_call : look (start 0x2FFF id) (fun t => (t.pc, t.stack)) = some (0xFFF, [0x202]) := by decide
theorem test_call_overflow : look (start 0x2300 (·.setStack (stackOf 16))) (fun t => (t.pc, t.stack, t.diag.bits)) =
    some (0x300, stackOf 16, 0b0010) := by decide
theorem test_ret : look (start 0x07EE fun s => (s.setPc 0x300).setStack [0x1000, 0x202]) (fun t => (t.pc, t.stack)) =
    some (0x1000, [0x202]) := by decide
theorem test_ret_underflow : look (start 0x00EE (·.setPc 0x300)) (fun t => (t.pc, t.stack, t.diag.bits)) =
    some (0x302, [], 0b0100) := by decide
theorem test_se_imm : look (start 0x3000 (·.setPc 0x208)) (fun t => t.pc) = some 0x20C ∧
    look (start 0x3000 fun s => (s.setPc 0x208).setV 0 1) (fun t => t.pc) = some 0x20A := by decide
theorem test_sne_imm : look (start 0x4311 (·.setV 3 0x10)) (fun t => t.pc) = some 0x204 ∧
    look (start 0x4310 (·.setV 3 0x10)) (fun t => t.pc) = some 0x202 := by decide
theorem test_se_reg : look (start 0x5120 fun s => (s.setV 1 0x33).setV 2 0x33) (fun t => t.pc) = some 0x204 ∧
    look (start 0x512F fun s => (s.setV 1 0x33).setV 2 0x34) (fun t => t.pc) = some 0x202 := by decide
theorem test_sne_reg : look (start 0x9120 fun s => (s.setV 1 0x01).setV 2 0x02) (fun t => t.pc) = some 0x204 ∧
    look (start 0x9127 fun s => (s.setV 1 0x02).setV 2 0x02) (fun t => t.pc) = some 0x202 := by decide
theorem test_jp_v0_wraps : look (start 0xBFFF (·.setV 0 0xFF)) (fun t => t.pc) = some 0x0FE := by decide
theorem test_jp_v0_index : look (start 0xB2FF fun s => (s.setV 0 0x02).setV 2 0x80) (fun t => t.pc) = some 0x301 := by decide

/-! Address register and memory. -/

theorem test_ld_i : look (start 0xAFFF (·.setI 0xFFFF)) (fun t => t.i) = some 0x0FFF := by decide
theorem test_add_i_no_flag : look (start 0xF21E fun s => (s.setI 0x0FFF).setV 2 1) (fun t => (t.i, t.getV 15)) =
    some (0x1000, 0) := by decide
theorem test_add_i_wraps : look (start 0xF21E fun s => (s.setI 0xFFFF).setV 2 2) (fun t => t.i) = some 0x0001 := by decide
theorem test_ld_f_not_masked : look (start 0xF029 (·.setV 0 0x10)) (fun t => t.i) = some 0x050 := by decide
theorem test_ld_b : look (start 0xF133 fun s => (s.setI 0x123).setV 1 0xFE)
    (fun t => ([0x123, 0x124, 0x125].map t.readByte, t.i)) = some ([2, 5, 4], 0x123) := by decide
theorem test_ld_b_out_of_bounds : look (start 0xF133 fun s => (s.setI 0xFFE).setV 1 0x7B)
    (fun t => ([0xFFE, 0xFFF, 0x000].map t.readByte, t.diag.bits)) = some ([1, 2, 0xF0], 0b1000) := by decide
theorem test_dump : look (start 0xF255 fun s => ((((s.setI 0x123).setV 0 1).setV 1 2).setV 2 3).setV 3 4)
    (fun t => ([0x123, 0x124, 0x125, 0x126].map t.readByte, t.i)) = some ([1, 2, 3, 0], 0x126) := by decide
theorem test_dump_wraps_i : look (start 0xF055 fun s => (s.setI 0xFFFF).setV 0 1) (fun t => (t.i, t.readByte 0, t.diag.bits)) =
    some (0x0000, 0xF0, 0b1000) := by decide
theorem test_load : look (start 0xF265 fun s => (s.setI 0x123).writeBytes 0x123 [1, 2, 3, 4])
    (fun t => ([0, 1, 2, 3].map t.getV, t.i)) = some ([1, 2, 3, 0], 0x126) := by decide
theorem test_load_out_of_bounds : look (start 0xF365 fun s => ((s.setI 0xFFE).setV 3 9).writeBytes 0xFFE [0x11, 0x22])
    (fun t => ([0, 1, 2, 3].map t.getV, t.i, t.diag.bits)) = some ([0x11, 0x22, 0, 0], 0x1002, 0b1000) := by decide

/-! Framebuffer. -/

theorem test_cls : look (start 0x05E0 fun s => (s.setFb (s.fb.set 3 7 true)).setV 15 1) (fun t => (t.pixel 3 7, t.getV 15)) =
    some (false, 1) := by decide
/-- V-DRW-4: clipped right and bottom. -/
theorem test_drw_clips : look (start 0xD125 fun s => ((s.setI 0x32).setV 1 0x3E).setV 2 0x1E)
    (fun t => (litIn 30 2 t, litIn 0 3 t, t.getV 15)) = some ([(30, 62), (30, 63), (31, 62)], [], 0) := by decide
/-- V-DRW-11 on the first columns: a collision in row 0 stays raised. -/
theorem test_drw_collision : look (start 0xD002 fun s =>
      ((s.setI 0x300).writeBytes 0x300 [0xF0, 0x0F]).setFb ((s.fb.set 0 0 true).set 0 5 true))
    (fun t => (litIn 0 2 t, t.getV 15)) = some ([(0, 1), (0, 2), (0, 3), (0, 5), (1, 4), (1, 5), (1, 6), (1, 7)], 1) := by decide

/-! Timers and keys. -/

theorem test_ld_vx_dt : look (start 0xF107 (·.setDt 4)) (fun t => (t.getV 1, t.dt)) = some (4, 4) := by decide
theorem test_ld_dt : look (start 0xF015 (·.setV 0 7)) (fun t => (t.dt, t.st)) = some (7, 0) := by decide
theorem test_ld_st : look (start 0xF218 (·.setV 2 0x1E)) (fun t => (t.dt, t.st)) = some (0, 0x1E) := by decide
theorem test_skp : look (start 0xE49E fun s => (s.setV 4 7).setKey 7 true) (fun t => t.pc) = some 0x204 ∧
    look (start 0xE49E fun s => (s.setV 4 0x17).setKey 7 true) (fun t => t.pc) = some 0x202 := by decide
theorem test_sknp : look (start 0xE4A1 fun s => (s.setV 4 7).setKey 7 true) (fun t => t.pc) = some 0x202 ∧
    look (start 0xE4A1 fun s => (s.setV 4 0x17).setKey 7 true) (fun t => t.pc) = some 0x204 := by decide
theorem test_wait_no_key : look (start 0xF00A id) (fun t => (t.pc, t.getV 0)) = some (0x200, 0) := by decide
theorem test_wait_lowest : look (start 0xF30A fun s => ((s.setKey 3 true).setKey 9 true).setKey 12 true)
    (fun t => (t.pc, t.getV 3)) = some (0x202, 3) := by decide

/-! Step, fetch, unknown opcodes. -/

theorem test_unknown_opcode : look State.reset (fun t => (t.pc, t.diag.bits)) = some (0x202, 0b0001) := by decide
theorem test_fetch_outside : look (State.reset.setPc 0xFFFF) (fun t => (t.pc, t.diag.bits)) = some (0x0001, 0b1001) := by decide
/-- V-STEP-9: two flags in one Step. -/
theorem test_fetch_last_byte : look (((State.reset.writeByte 0xFFF 0x23).setPc 0xFFF).setStack (stackOf 16))
    (fun t => (t.pc, t.diag.bits)) = some (0x300, 0b1010) := by decide
theorem test_odd_pc : look (start 0x6A55 (·.setPc 0x201)) (fun t => (t.getV 10, t.pc)) = some (0x55, 0x203) := by decide
/-- The instruction placed by withFetchWord is the one the next Step runs. -/
theorem test_with_fetch_word : look (State.reset.withFetchWord 16 0x2FFF) (fun t => (t.pc, t.stack)) = some (0xFFF, [0x202]) ∧
    look ((State.reset.setPc 0xFFF).withFetchWord 16 0x6AFF) (fun t => (t.pc, t.getV 10)) = some (0x202, 0xFF) := by decide

/-! Host operations. -/

theorem test_reset_op : lookOp .reset (start 0x1234 fun s => (s.setV 3 1).setStack [0x300]) (fun t r => (t == State.reset, r)) =
    some (true, .none) := by decide
theorem test_tick : lookOp .tickTimers ((State.reset.setDt 2).setSt 0) (fun t _ => (t.dt, t.st)) = some (1, 0) := by decide
theorem test_key_codes : [16, 255, -1].map (fun c => lookOp (.keyDown c) State.reset fun t _ => t == State.reset) =
    List.replicate 3 (some true) := by decide
theorem test_key_up : lookOp (.keyUp 3) ((State.reset.setKey 3 true).setKey 5 true) (fun t _ => t.key.toList) =
    some ([false, false, false, false, false, true] ++ List.replicate 10 false) := by decide
theorem test_load_program : lookOp (.loadProgram [0x60]) (State.reset.setV 1 7)
    (fun t r => ([0x1FF, 0x200, 0x201].map t.readByte, t.getV 1, r)) = some ([0, 0x60, 0], 0, .ok) := by decide
theorem test_load_program_empty : lookOp (.loadProgram []) (State.reset.setV 1 7) (fun t r => (t == State.reset, r)) =
    some (true, .ok) := by decide

/-- Reset and a load with a font that is not the default: its bytes below 0x050, the image from 0x200. -/
theorem test_other_font : (match perform ((defaultFont.set 0 0x5A).set 79 0x5A) (.loadProgram [0x12]) State.reset with
      | .next d => [0x000, 0x001, 0x04F, 0x050, 0x200].map d.state.readByte
      | .fault _ => []
      | .refused _ => []) = [0x5A, 0x90, 0x5A, 0x00, 0x12] := by decide

/-! Witnesses: for each statement with hypotheses, states and operands that meet them, at the edges of each clause. -/

theorem witness_DecodeUndoesEncode : decode 0x512F = .instr (.seVxVy 1 2) ∧ encode (.seVxVy 1 2) = 0x5120 ∧
    canonicalWord (.seVxVy 1 2) 0x512F = 0x5120 := by decide
theorem witness_OpcodeMapSelectsExactly : (0x05E0#16 &&& 0xF0FF#16 = 0x00E0#16) ∧ decode 0x05E0 = .instr .cls := by decide
theorem witness_WrittenOperands : (Line.mk .JP [.num 0xFFF]).wellFormed = true ∧ (Line.mk .JP [.num 0x1000]).wellFormed = false ∧
    (Line.mk .LD [.V 15, .num 0xFF]).wellFormed = true ∧ (Line.mk .LD [.V 16, .num 0x100]).wellFormed = false ∧
    (Line.mk .LD [.memI, .V 15]).wellFormed = true ∧ (Line.mk .LD [.memI, .V 16]).wellFormed = false ∧
    (Line.mk .LD [.ST, .V 15]).toInstr? = some (.ldSTVx 15) := by decide
/-- Both clauses of StepRunsTheDecodedInstruction; the second is also UnknownOpcodeIsSilentNoOp's hypothesis. -/
theorem witness_StepRuns : decode (start 0x1234 id).fetchWord = .instr (.jpNnn 0x234) ∧
    decode State.reset.fetchWord = .reject .unknown0 := by decide
theorem witness_FetchOutsideMemory : 4096 ≤ (State.reset.setPc 0x1000).pc.toNat ∧ 4096 ≤ (State.reset.setPc 0xFFFF).pc.toNat ∧
    (State.reset.setPc 0xFFF).pc = 0xFFF#16 := by decide
/-- The hypothesis of DiagTakesSevenValues and of AccessMapOfStep: a Step that answers a next state. -/
theorem witness_DiagTakesSevenValues : ∃ t, step State.reset = .next t := ⟨_, rfl⟩
/-- AccessMapOfStep: a Step that changes each part. -/
theorem witness_AccessMapOfStep_registers : look (start 0x8124 fun s => (s.setV 1 0xFF).setV 2 1) (fun t => t.getV 15) = some 1 ∧
    look (start 0xA123 id) (fun t => t.i) = some 0x123 ∧ look (start 0x2FFF id) (fun t => t.stack) = some [0x202] ∧
    look (start 0xF015 (·.setV 0 7)) (fun t => t.dt) = some 7 ∧ look (start 0xF015 (·.setV 0 7)) (fun t => t.st) = some 0 ∧
    look (start 0xF018 (·.setV 0 7)) (fun t => t.st) = some 7 := by decide
theorem witness_AccessMapOfStep_arrays : look (start 0x00E0 fun s => s.setFb (s.fb.set 3 7 true)) (fun t => t.pixel 3 7) =
    some false ∧ look (start 0xF133 fun s => (s.setI 0x300).setV 1 9) (fun t => t.readByte 0x302) = some 9 := by decide
theorem witness_InvariantKept : (start 0x2FFF id).Inv ∧ look (start 0x2FFF id) (fun t => t.stack.length) = some 1 :=
  ⟨⟨by decide, by decide⟩, by decide⟩
/-- The invariant at its edge: a full stack. -/
theorem witness_InvariantKept_full : (start 0x2300 (·.setStack (stackOf 16))).Inv := ⟨by decide, by decide⟩
theorem witness_InvariantKeptByEverySchedule : State.reset.Inv ∧
    schedule defaultFont [.keyDown 3, .tickTimers] State.reset = .next (State.reset.keyDown 3).tickTimers := ⟨⟨by decide, by decide⟩, rfl⟩
theorem witness_StatesThatReadTheSame : State.reset.Inv ∧ OnlyChanges [] State.reset State.reset := by
  refine ⟨⟨by decide, by decide⟩, fun p _ => ?_⟩
  cases p <;> simp [Same]
/-- A clean Step and an unclean one. -/
theorem witness_CleanStepConditions : look (start 0xF255 (·.setI 0xFFD)) (fun t => t.diag) = some Diag.none ∧
    look (start 0xF255 (·.setI 0xFFE)) (fun t => t.diag.memOob) = some true := by decide
theorem witness_SoundTimerCannotBeRead : decode (start 0xF218 id).fetchWord = .instr (.ldSTVx 2) ∧
    decode (start 0xF107 id).fetchWord = .instr (.ldVxDT 1) := by decide
/-- A Step that reads no key: the last clause of StepTicksNoTimerAndSamplesNoKey. -/
theorem witness_StepSamplesNoKey : ¬ ∃ i, decode (start 0xF107 id).fetchWord = .instr i ∧ ReadsKeys i := by
  have h : decode (start 0xF107 id).fetchWord = .instr (.ldVxDT 1) := by decide
  rintro ⟨i, hi, hr⟩
  rw [h] at hi
  cases hi
  exact hr
/-- SetsVAndFlag: x = 15 and x not 15; SetsV: a register that is not x. -/
theorem witness_SetsVAndFlag : (1 : Reg) ≠ 15 ∧ (2 : Reg) ≠ 1 ∧ (2 : Reg) ≠ 15 := by decide
theorem witness_RandomByteIsMasked : (0x00#8 : Imm8) = 0x00#8 ∧ (2 : Reg) ≠ 3 := by decide
theorem witness_JumpSetsProgramCounter : (0x1234#16 &&& 0xF000#16 = 0x1000#16) ∧ (0x1FFF#16 &&& 0xF000#16 = 0x1000#16) ∧
    decode (start 0x1FFF id).fetchWord = .instr (.jpNnn 0xFFF) := by decide
/-- The lowest and the highest address a self-jump can stand at so that it decodes whole. -/
theorem witness_JumpToSelf : (start 0x1200 id).AtJumpToSelf ∧ (start 0x1FFE (·.setPc 0xFFE)).AtJumpToSelf :=
  ⟨⟨by decide, by decide⟩, ⟨by decide, by decide⟩⟩
theorem witness_CallPushesAndJumps : (State.reset.setStack (stackOf 15)).depth < 16 ∧
    16 ≤ (State.reset.setStack (stackOf 16)).depth := by decide
theorem witness_ReturnPops : (State.reset.setStack [0x202]).stack = 0x202 :: [] ∧ State.reset.stack = [] := by decide
theorem witness_ReturnUndoesCall : (State.reset.setStack (stackOf 15)).depth < 16 ∧
    ∃ t, exec (.callNnn 0x300) (State.reset.setStack (stackOf 15)) = .next t ∧ (t.setV 1 7).stack = t.stack :=
  ⟨by decide, _, rfl, rfl⟩
/-- SkipsWhen: the condition holds, and it does not. -/
theorem witness_RegisterSkips : (State.reset.getV 1).toNat = (State.reset.getV 2).toNat ∧
    ((State.reset.setV 1 1).getV 1).toNat ≠ ((State.reset.setV 1 1).getV 2).toNat := by decide
/-- The highest address an instruction is fetched at, with a skip there. -/
theorem witness_SkipReachesAtMost1003 : decode ((State.reset.writeByte 0xFFF 0x30).setPc 0xFFF).fetchWord = .instr (.seVxKk 0 0) ∧
    IsSkip (.seVxKk 0 0) ∧ look ((State.reset.writeByte 0xFFF 0x30).setPc 0xFFF) (fun t => t.pc) = some 0x1003 :=
  ⟨by decide, trivial, by decide⟩
/-- BCD: the last address with all digits in bounds, and the first with one, two and three digits out. -/
theorem witness_BcdStoresThreeDigits : (State.reset.setI 0xFFD).dataBase + 2 < 4096 ∧ (State.reset.setI 0xFFE).dataBase + 1 < 4096 ∧
    ¬ (State.reset.setI 0xFFE).dataBase + 2 < 4096 ∧ (State.reset.setI 0xFFF).dataBase < 4096 ∧
    ¬ (State.reset.setI 0x1000).dataBase < 4096 := by decide
/-- Dump and load of V0 and V1: both bytes in bounds, the second out, a register above x. -/
theorem witness_DumpAndLoad : (1 : Reg).val ≤ (1 : Reg).val ∧ (State.reset.setI 0xFFE).dataBase + (1 : Reg).val < 4096 ∧
    4096 ≤ (State.reset.setI 0xFFF).i.toNat + (1 : Reg).val ∧ (1 : Reg).val < (2 : Reg).val := by decide
/-- The last block in bounds, and a state after the dump with other registers. -/
theorem witness_DumpThenLoad : (State.reset.setI 0xFFD).i.toNat + (2 : Reg).val < 4096 ∧
    ∃ t, exec (.ldMemIVx 2) (State.reset.setI 0xFFD) = .next t ∧ Same t ((t.setV 0 9).setI 0xFFD) .mem ∧
      ((t.setV 0 9).setI 0xFFD).i = (State.reset.setI 0xFFD).i :=
  ⟨by decide, _, rfl, fun _ => rfl, rfl⟩
/-- P6: the dump writes 6A 55, LD VA,0x55; and the last address where it fits. -/
theorem witness_FetchSeesTheLastStore : 1 ≤ (1 : Reg).val ∧ (State.reset.setI 0xFFE).i.toNat + 1 < 4096 ∧
    decode (((State.reset.setV 0 0x6A).setV 1 0x55).getV 0 ++ ((State.reset.setV 0 0x6A).setV 1 0x55).getV 1) =
      .instr (.ldVxKk 10 0x55) := by decide
/-- A draw that collides (the glyph 0 at a lit origin) and one that does not. -/
theorem witness_Draw_collides : Collides (State.reset.setFb (State.reset.fb.set 0 0 true)) 5 0 0 :=
  ⟨0, 0, by decide, by decide, by decide, by decide⟩
theorem witness_Draw_clear : ¬ Collides State.reset 5 0 0 := by
  rintro ⟨r, c, hr, hc, -, h⟩
  have e : State.reset.pixel r c = false := by
    simp [State.pixel, Framebuffer.get, State.reset, hr, hc]
  rw [e] at h
  cases h
/-- DrawingTwiceRestores: the second draw straight after the first, coordinates in V0 and V1. -/
theorem witness_DrawingTwice : ∃ t, exec (.drwVxVyN 0 1 5) State.reset = .next t ∧ Same t t .fb ∧ Same t t .mem ∧
    t.i = State.reset.i ∧ t.getV 0 = State.reset.getV 0 ∧ t.getV 1 = State.reset.getV 1 :=
  ⟨_, rfl, fun _ _ => rfl, fun _ => rfl, by decide, by decide, by decide⟩
/-- Key skips: the key is down; it is up; V[x] names no key (16 is the first such value). -/
theorem witness_KeySkips : (∃ h : (((State.reset.setV 4 15).setKey 15 true).getV 4).toNat < 16,
      ((State.reset.setV 4 15).setKey 15 true).key[(((State.reset.setV 4 15).setKey 15 true).getV 4).toNat] = true) ∧
    (¬ ∃ h : (State.reset.getV 4).toNat < 16, State.reset.key[(State.reset.getV 4).toNat] = true) ∧
    ¬ ((State.reset.setV 4 16).getV 4).toNat < 16 := by
  refine ⟨⟨by decide, by decide⟩, ?_, by decide⟩
  rintro ⟨h, hk⟩
  simp [State.reset] at hk
theorem witness_WaitForKey_none : ∀ k, k < 16 → State.reset.keyDownAt k = false := by decide
/-- WaitForKey: the lowest key is 0; it is 15. -/
theorem witness_WaitForKey_some : (State.reset.setKey 0 true).keyDownAt (0 : KeyIndex).val = true ∧
    (State.reset.setKey 15 true).keyDownAt (15 : KeyIndex).val = true ∧
    ∀ m, m < (15 : KeyIndex).val → (State.reset.setKey 15 true).keyDownAt m = false := by decide
theorem witness_WaitForKeyIsFixedPoint : decode (start 0xF00A id).fetchWord = .instr (.ldVxK 0) ∧
    ∀ k, k < 16 → (start 0xF00A id).keyDownAt k = false := by decide
/-- Key codes at the edges. -/
theorem witness_KeyEvents : lookOp (.keyDown 0) State.reset (fun t _ => t.keyDownAt 0) = some true ∧
    lookOp (.keyDown 15) State.reset (fun t _ => t.keyDownAt 15) = some true ∧
    lookOp (.keyDown 16) State.reset (fun t _ => t.keyDownAt 0) = some false ∧
    lookOp (.keyDown (-1)) State.reset (fun t _ => t.keyDownAt 15) = some false ∧
    (State.reset.setKey 15 true).keyDownAt (15 : KeyIndex).val = true ∧ State.reset.keyDownAt (0 : KeyIndex).val = false := by
  decide
theorem witness_KeyIsDown : ([.keyUp 3, .keyDown 3, .tickTimers] : List Label).filter (touchesKey 3) = [.keyUp 3, .keyDown 3] := by
  decide
/-- KeyAfterOneOperation: an operation that touches key 3, and one that does not (a load too long is such). -/
theorem witness_KeyAfterOneOperation : touchesKey 3 (.keyUp 3) = true ∧ touchesKey 3 (.keyUp 5) = false ∧
    touchesKey 3 (.loadProgram []) = true ∧ touchesKey 3 .step = false := by decide
/-- LoadProgram: the longest image and the first that is too long. -/
theorem witness_LoadProgram : (List.replicate 3583 0xAB#8).length ≤ 3583 ∧ 3583 < (List.replicate 3584 0xAB#8).length := by
  rw [List.length_replicate, List.length_replicate]
  decide
theorem witness_Reset : (79 : Nat) < 80 ∧ 80 ≤ (4095 : Nat) ∧ (4095 : Nat) < 4096 := by decide
/-- ReadFramebuffer and introspection: the last row, column, key and address. -/
theorem witness_ReadOut : (31 : Nat) < 32 ∧ (63 : Nat) < 64 ∧ (15 : Nat) < 16 ∧ (4095 : Nat) < 4096 := by decide

end Sys2Proof.Tests
end

section
/-! PROOFS. What a Step, one host operation and a schedule of host operations always do: they answer a next state and keep
the invariant (spec/00_scope.md R14, R16). Each level is lifted from the one below, starting at `exec_next`. -/

namespace Sys2Proof.Machine

/-! Step as an equation, by what was fetched. -/

theorem step_of_instr {s : State} {i : Instr} (h : decode s.fetchWord = .instr i) : step s = exec i s.afterFetch := by
  rw [step, h]

theorem step_of_reject {s : State} {r : Reject} (h : decode s.fetchWord = .reject r) :
    step s = .next s.afterFetch.raiseUnknownOpcode := by
  rw [step, h, unknownOpcode]

/-! The invariant speaks of the stack and the memory only. -/

theorem State.Inv_congr {s t : State} (hstack : t.stack = s.stack) (hmem : t.mem = s.mem) : t.Inv ↔ s.Inv := by
  rw [State.Inv, State.Inv, hstack, hmem]

theorem State.afterFetch_Inv {s : State} : s.afterFetch.Inv ↔ s.Inv := by
  rw [State.afterFetch_eq]
  exact State.Inv_congr rfl rfl

theorem State.resetOp_Inv (font : Font) (s : State) : (s.resetOp font).Inv := State.resetWith_Inv font

/-- An image the limit lets through ends at or below 0xFFF, so that every byte of it is placed in bounds. -/
theorem State.loadProgram_Inv {font : Font} {s t : State} {image : List Byte} (h : s.loadProgram font image = some t) :
    t.Inv := by
  obtain ⟨-, hnone⟩ | ⟨hlen, hsome⟩ := s.loadProgram_cases font image
  · rw [hnone] at h
    cases h
  · rw [hsome] at h
    cases h
    exact ⟨(s.resetOp_Inv font).1, Memory.wf_putAll image (by simp only [Config.memSize]; omega) (Memory.ofFont_wf font)⟩

theorem State.setKeyCode_Inv {s : State} (code : Int) (p : Bool) : (s.setKeyCode code p).Inv ↔ s.Inv := by
  obtain ⟨k, -, e⟩ | ⟨-, e⟩ := s.setKeyCode_cases code p
  · rw [e]
    exact State.Inv_congr rfl rfl
  · rw [e]

/-! A Step, one operation, a schedule. -/

/-- Every Step completes, leaves the keys alone, and keeps the invariant: `exec_next` for an instruction, the silent no-op
(R124) for an unknown opcode. -/
theorem step_next (s : State) : ∃ t, step s = .next t ∧ t.key = s.key ∧ (s.Inv → t.Inv) := by
  cases hd : decode s.fetchWord with
  | instr i =>
    obtain ⟨t, ht, hkey, hinv⟩ := exec_next i s.afterFetch
    have hkey' : s.afterFetch.key = s.key := by rw [State.afterFetch_eq]
    exact ⟨t, (step_of_instr hd).trans ht, hkey.trans hkey', fun hs => hinv (State.afterFetch_Inv.2 hs)⟩
  | reject r =>
    refine ⟨_, step_of_reject hd, ?_⟩
    rw [State.afterFetch_eq]
    exact ⟨rfl, (State.Inv_congr rfl rfl).2⟩

/-- Every host operation completes and keeps the invariant. -/
theorem perform_next (font : Font) (l : Label) (s : State) :
    ∃ d, perform font l s = .next d ∧ (s.Inv → d.state.Inv) := by
  cases l with
  | reset => exact ⟨_, rfl, fun _ => s.resetOp_Inv font⟩
  | loadProgram image =>
    cases h : s.loadProgram font image with
    | none => exact ⟨⟨s, .loadError⟩, by rw [perform, h], id⟩
    | some t => exact ⟨⟨t, .ok⟩, by rw [perform, h], fun _ => State.loadProgram_Inv h⟩
  | step =>
    obtain ⟨t, ht, -, hinv⟩ := step_next s
    exact ⟨⟨t, .diag t.diag⟩, by rw [perform, ht], hinv⟩
  | tickTimers => exact ⟨_, rfl, (State.Inv_congr rfl rfl).2⟩
  | keyDown code => exact ⟨_, rfl, (State.setKeyCode_Inv code true).2⟩
  | keyUp code => exact ⟨_, rfl, (State.setKeyCode_Inv code false).2⟩
  | readFramebuffer => exact ⟨_, rfl, id⟩
  | introspect => exact ⟨_, rfl, id⟩

/-- Every schedule completes and keeps the invariant. -/
theorem schedule_next (font : Font) (ls : List Label) (s : State) :
    ∃ t, schedule font ls s = .next t ∧ (s.Inv → t.Inv) := by
  induction ls generalizing s with
  | nil => exact ⟨s, rfl, id⟩
  | cons l ls ih =>
    obtain ⟨d, hd, hinv⟩ := perform_next font l s
    obtain ⟨t, ht, hinv'⟩ := ih d.state
    exact ⟨t, by rw [schedule, hd]; exact ht, hinv' ∘ hinv⟩

/-- Settles O15: a schedule answers one state only, and `schedule_next` keeps the invariant to it. -/
theorem invariantKeptByEverySchedule : Obligations.InvariantKeptByEverySchedule := by
  intro font ls s t hs ht
  obtain ⟨t', ht', hinv⟩ := schedule_next font ls s
  rw [ht'] at ht
  cases ht
  exact hinv hs

/-- Settles O9: the three levels, each by its lemma. -/
theorem everyOperationAnswersNext : Obligations.EveryOperationAnswersNext := by
  refine ⟨fun i s => ?_, fun s => ?_, fun font ls s => ?_⟩
  · obtain ⟨t, ht, -⟩ := exec_next i s
    exact ⟨t, ht⟩
  · obtain ⟨t, ht, -⟩ := step_next s
    exact ⟨t, ht⟩
  · obtain ⟨t, ht, -⟩ := schedule_next font ls s
    exact ⟨t, ht⟩

end Sys2Proof.Machine
end

section
/-! PROOFS. The customary end of a program (spec/00_scope.md R19): a jump to its own address is a fixed point of Step. -/

namespace Sys2Proof.Machine

/-- A word that decodes to a jump carries the target in its low 12 bits. -/
theorem nnnField_of_decode_jpNnn {w : Word} {nnn : Imm12} (h : decode w = .instr (.jpNnn nnn)) : nnnField w = nnn := by
  have hop : opField w = 0x1#4 := (and_F000_iff w 0x1#4).1 (Laws.decode_matches h)
  rw [decode_op1 hop] at h
  cases h
  rfl

/-- An address below 4096 survives the way through the 12-bit immediate. -/
theorem zext12_setWidth {a : Word} (h : a.toNat < 4096) : zext12 (a.setWidth 12) = a := by
  apply BitVec.eq_of_toNat_eq
  rw [zext12, BitVec.toNat_setWidth, BitVec.toNat_setWidth]
  omega

/-- No jump to itself stands at 0xFFF: its low byte would be read outside memory as 0x00 (R63), and it would have to be
0xFF. So both bytes of the jump are fetched in bounds. -/
theorem State.AtJumpToSelf.pc_lt {s : State} (h : s.AtJumpToSelf) : s.pc.toNat < 4095 := by
  obtain ⟨hdec, hpc⟩ := h
  by_contra hge
  have hlow : s.fetchWord.toNat % 256 = 0 := by
    have := State.kkField_fetchWord_oob (s := s) (by omega)
    simpa [kkField_eq] using congrArg BitVec.toNat this
  have htarget : s.fetchWord.toNat % 4096 = s.pc.toNat % 4096 := by
    have := nnnField_of_decode_jpNnn hdec
    simpa [nnnField_eq] using congrArg BitVec.toNat this
  omega

/-- Settles O29: the jump puts pc back to the address it was fetched from, and its fetch, wholly in bounds, leaves diag
cleared. -/
theorem jumpToSelfIsFixedPoint : Obligations.JumpToSelfIsFixedPoint := by
  intro s h
  have hoob : decide (4095 ≤ s.pc.toNat) = false := decide_eq_false (Nat.not_le.2 h.pc_lt)
  obtain ⟨hdec, hpc⟩ := h
  calc step s = exec (.jpNnn (s.pc.setWidth 12)) s.afterFetch := step_of_instr hdec
    _ = .next (s.afterFetch.setPc (zext12 (s.pc.setWidth 12))) := rfl
    _ = .next (s.afterFetch.setPc s.pc) := by rw [zext12_setWidth hpc]
    _ = .next { s with diag := Diag.none } := by rw [State.afterFetch_eq, hoob]; rfl

end Sys2Proof.Machine
end

section
/-! PROOFS. The frame of every instruction (spec/00_scope.md R11): `partsWritten` lists the parts of the state an instruction
may write, and no other part reads differently afterwards. Each frame is put together from those of the named operations. -/

namespace Sys2Proof.Machine

/-! Frames compose. -/

theorem OnlyChanges.refl (ps : List Part) (s : State) : OnlyChanges ps s s := by
  intro p _
  cases p <;> simp [Same]

theorem Same.trans {s t u : State} {p : Part} (h : Same s t p) (h' : Same t u p) : Same s u p := by
  cases p <;> simp_all [Same]

theorem OnlyChanges.trans {ps qs : List Part} {s t u : State} (h : OnlyChanges ps s t) (h' : OnlyChanges qs t u) :
    OnlyChanges (ps ++ qs) s u := by
  intro p hp
  rw [List.mem_append, not_or] at hp
  exact (h p hp.1).trans (h' p hp.2)

theorem OnlyChanges.mono {ps qs : List Part} {s t : State} (h : OnlyChanges ps s t) (hsub : ps ⊆ qs) :
    OnlyChanges qs s t :=
  fun p hp => h p fun hm => hp (hsub hm)

/-! The frame of each operation. -/

theorem onlyChanges_setV (s : State) (x : Reg) (b : Byte) : OnlyChanges [.v] s (s.setV x b) := by
  intro p hp
  cases p <;> simp [Same] at hp ⊢

theorem onlyChanges_setI (s : State) (a : Word) : OnlyChanges [.i] s (s.setI a) := by
  intro p hp
  cases p <;> simp [Same] at hp ⊢

theorem onlyChanges_setPc (s : State) (a : Word) : OnlyChanges [.pc] s (s.setPc a) := by
  intro p hp
  cases p <;> simp [Same] at hp ⊢

theorem onlyChanges_setStack (s : State) (l : List Word) : OnlyChanges [.stack] s (s.setStack l) := by
  intro p hp
  cases p <;> simp [Same] at hp ⊢

theorem onlyChanges_setDt (s : State) (b : Byte) : OnlyChanges [.dt] s (s.setDt b) := by
  intro p hp
  cases p <;> simp [Same] at hp ⊢

theorem onlyChanges_setSt (s : State) (b : Byte) : OnlyChanges [.st] s (s.setSt b) := by
  intro p hp
  cases p <;> simp [Same] at hp ⊢

theorem onlyChanges_setFb (s : State) (fb : Framebuffer) : OnlyChanges [.fb] s (s.setFb fb) := by
  intro p hp
  cases p <;> simp [Same] at hp ⊢

theorem onlyChanges_setMem (s : State) (m : Memory) : OnlyChanges [.mem] s (s.setMem m) := by
  intro p hp
  cases p <;> simp [Same] at hp ⊢

theorem onlyChanges_setDiag (s : State) (d : Diag) : OnlyChanges [.diag] s (s.setDiag d) := by
  intro p hp
  cases p <;> simp [Same] at hp ⊢

theorem onlyChanges_nextDraw (s : State) : OnlyChanges [.draws] s s.nextDraw := by
  intro p hp
  cases p <;> simp [Same] at hp ⊢

theorem onlyChanges_setResultAndFlag (s : State) (x : Reg) (r : Byte) (f : Bool) :
    OnlyChanges [.v] s (s.setResultAndFlag x r f) :=
  ((onlyChanges_setV s x r).trans (onlyChanges_setV _ vf _)).mono (by simp)

theorem onlyChanges_skipIf (s : State) (c : Bool) : OnlyChanges [.pc] s (s.skipIf c) := by
  rw [State.skipIf_eq]
  exact onlyChanges_setPc s _

theorem onlyChanges_push (s : State) (a : Word) : OnlyChanges [.stack, .diag] s (s.push a) := by
  obtain ⟨-, e⟩ | ⟨-, e⟩ := s.push_cases a <;> rw [e]
  · exact (onlyChanges_setStack s _).mono (by simp)
  · exact (onlyChanges_setDiag s _).mono (by simp)

theorem onlyChanges_popToPc (s : State) : OnlyChanges [.pc, .stack, .diag] s s.popToPc := by
  obtain ⟨a, rest, -, e⟩ | ⟨-, e⟩ := s.popToPc_cases <;> rw [e]
  · exact ((onlyChanges_setStack s rest).trans (onlyChanges_setPc _ a)).mono (by simp)
  · exact (onlyChanges_setDiag s _).mono (by simp)

theorem onlyChanges_noteAccesses (s : State) (a n : Nat) : OnlyChanges [.diag] s (s.noteAccesses a n) := by
  rw [State.noteAccesses_eq]
  exact onlyChanges_setDiag s _

theorem onlyChanges_writeBytes (s : State) (a : Nat) (bs : List Byte) :
    OnlyChanges [.mem, .diag] s (s.writeBytes a bs) := by
  obtain ⟨m, hm⟩ := State.writeBytes_eq bs s a
  rw [hm]
  exact (onlyChanges_setMem s m).trans (onlyChanges_setDiag _ _)

theorem onlyChanges_loadRegs (ks : List Reg) : ∀ (s : State) (a : Nat), OnlyChanges [.v, .diag] s (s.loadRegs a ks) := by
  induction ks with
  | nil => exact fun s _ => OnlyChanges.refl _ s
  | cons k ks ih =>
    intro s a
    rw [State.loadRegs, State.noteAccess_eq]
    exact (((onlyChanges_setDiag s _).trans (onlyChanges_setV _ k _)).trans (ih _ a)).mono (by simp)

theorem onlyChanges_afterFetch (s : State) : OnlyChanges [.pc, .diag] s s.afterFetch :=
  (((onlyChanges_setDiag s Diag.none).trans (onlyChanges_noteAccesses _ s.pc.toNat 2)).trans
    (onlyChanges_setPc _ (s.pc + 2))).mono (by simp)

/-! The frame of each instruction. -/

/-- The parts an instruction may write: the access map (spec/10_state.md R42) by instruction, with the jumps of R34 and the
model's own fields `diag` and `draws`. -/
def partsWritten : Instr → List Part
  | .cls => [.fb]
  | .ret | .callNnn _ => [.pc, .stack, .diag]
  | .jpNnn _ | .jpV0Nnn _ | .seVxKk _ _ | .sneVxKk _ _ | .seVxVy _ _ | .sneVxVy _ _ | .skpVx _ | .sknpVx _ => [.pc]
  | .ldVxKk _ _ | .addVxKk _ _ | .ldVxVy _ _ | .orVxVy _ _ | .andVxVy _ _ | .xorVxVy _ _ | .addVxVy _ _ | .subVxVy _ _
  | .shrVx _ | .subnVxVy _ _ | .shlVx _ | .ldVxDT _ => [.v]
  | .rndVxKk _ _ => [.v, .draws]
  | .ldVxK _ => [.v, .pc]
  | .drwVxVyN _ _ _ => [.fb, .v, .diag]
  | .ldDTVx _ => [.dt]
  | .ldSTVx _ => [.st]
  | .ldINnn _ | .addIVx _ | .ldFVx _ => [.i]
  | .ldBVx _ => [.mem, .diag]
  | .ldMemIVx _ => [.mem, .i, .diag]
  | .ldVxMemI _ => [.v, .i, .diag]

/-- What LD Vx,K does. -/
theorem execLdVxK_cases (x : Reg) (s : State) :
    (s.lowestKey = none ∧ execLdVxK x s = .next (s.setPc (s.pc - 2))) ∨
      ∃ k, s.lowestKey = some k ∧ execLdVxK x s = .next (s.setV x (BitVec.ofNat 8 k.val)) := by
  unfold execLdVxK
  split
  · next h => exact .inl ⟨h, rfl⟩
  · next k h => exact .inr ⟨k, h, rfl⟩

/-- An instruction changes the parts it may write and no other. -/
theorem exec_onlyChanges {i : Instr} {s t : State} (h : exec i s = .next t) : OnlyChanges (partsWritten i) s t := by
  cases i
  case cls => cases h; exact onlyChanges_setFb s _
  case ret => cases h; exact onlyChanges_popToPc s
  case callNnn => cases h; exact ((onlyChanges_push s _).trans (onlyChanges_setPc _ _)).mono (by simp [partsWritten])
  case jpNnn | jpV0Nnn => cases h; exact onlyChanges_setPc s _
  case seVxKk | sneVxKk | seVxVy | sneVxVy | skpVx | sknpVx => cases h; exact onlyChanges_skipIf s _
  case ldVxKk | addVxKk | ldVxVy | orVxVy | andVxVy | xorVxVy | ldVxDT => cases h; exact onlyChanges_setV s _ _
  case addVxVy | subVxVy | shrVx | subnVxVy | shlVx => cases h; exact onlyChanges_setResultAndFlag s _ _ _
  case rndVxKk =>
    cases h
    exact ((onlyChanges_nextDraw s).trans (onlyChanges_setV _ _ _)).mono (by simp [partsWritten])
  case ldVxK x =>
    obtain ⟨-, e⟩ | ⟨k, -, e⟩ := execLdVxK_cases x s <;> cases e.symm.trans h
    · exact (onlyChanges_setPc s _).mono (by simp [partsWritten])
    · exact (onlyChanges_setV s x _).mono (by simp [partsWritten])
  case drwVxVyN =>
    cases h
    exact (((onlyChanges_noteAccesses s _ _).trans (onlyChanges_setFb _ _)).trans (onlyChanges_setV _ vf _)).mono
      (by simp [partsWritten])
  case ldDTVx => cases h; exact onlyChanges_setDt s _
  case ldSTVx => cases h; exact onlyChanges_setSt s _
  case ldINnn | addIVx | ldFVx => cases h; exact onlyChanges_setI s _
  case ldBVx => cases h; exact onlyChanges_writeBytes s _ _
  case ldMemIVx =>
    cases h
    exact ((onlyChanges_writeBytes s _ _).trans (onlyChanges_setI _ _)).mono (by simp [partsWritten])
  case ldVxMemI =>
    cases h
    exact ((onlyChanges_loadRegs _ s _).trans (onlyChanges_setI _ _)).mono (by simp [partsWritten])

end Sys2Proof.Machine
end

section
/-! PROOFS. The state as data (spec/10_state.md R30, R35, R39): every Step keeps its invariant, and under the invariant what
a state reads determines it. Then the state after Reset, for every FONT (R41, R43). -/

namespace Sys2Proof.Machine

/-- Settles O13: `step_next` keeps the invariant to the one state a Step answers. -/
theorem invariantKeptByEveryStep : Obligations.InvariantKeptByEveryStep := by
  intro s t hs h
  obtain ⟨t', ht', -, hinv⟩ := step_next s
  cases ht'.symm.trans h
  exact hinv hs

/-! Parts that read the same are the same data. -/

theorem State.v_eq_of_getV_eq {s t : State} (h : ∀ j, t.getV j = s.getV j) : t.v = s.v :=
  Vector.ext fun j hj => h ⟨j, hj⟩

theorem State.key_eq_of_keyDownAt_eq {s t : State} (h : ∀ n, t.keyDownAt n = s.keyDownAt n) : t.key = s.key :=
  Vector.ext fun n hn => by simpa [State.keyDownAt, hn] using h n

theorem State.fb_eq_of_pixel_eq {s t : State} (h : ∀ r c, t.pixel r c = s.pixel r c) : t.fb = s.fb :=
  Framebuffer.eq_of_get_eq fun r c _ _ => h r c

theorem State.mem_eq_of_readByte_eq {s t : State} (hs : Memory.wf s.mem = true) (ht : Memory.wf t.mem = true)
    (h : ∀ a, t.readByte a = s.readByte a) : t.mem = s.mem :=
  Memory.eq_of_get_eq ht hs fun a ha => by simpa [State.readByte, ha] using h a

/-- Settles O16: part by part; for memory the canonical form makes the list the only one that reads so. -/
theorem statesThatReadTheSameAreEqual : Obligations.StatesThatReadTheSameAreEqual := by
  intro s t ⟨_, hs⟩ ⟨_, ht⟩ h
  have hsame (p : Part) : Same s t p := h p List.not_mem_nil
  exact State.ext_fields (State.v_eq_of_getV_eq (hsame .v)) (hsame .i) (hsame .pc) (hsame .stack) (hsame .dt) (hsame .st)
    (State.key_eq_of_keyDownAt_eq (hsame .key)) (State.fb_eq_of_pixel_eq (hsame .fb))
    (State.mem_eq_of_readByte_eq hs ht (hsame .mem)) (hsame .diag) (hsame .draws)

/-! Reset and FONT. -/

/-- What a state after Reset reads: FONT below 80, 0x00 from there on. -/
theorem State.resetWith_readByte (font : Font) (a : Nat) :
    (State.resetWith font).readByte a = if h : a < 80 then font[a] else 0x00#8 := by
  rw [State.readByte_eq]
  show (if a < 4096 then (Memory.ofFont font).get a else 0x00#8) = _
  rw [Memory.get_ofFont]
  by_cases h : a < 4096
  · rw [if_pos h]
  · rw [if_neg h, dif_neg (by omega)]

/-- Settles O59: the two states are one state up to `setMem`, and what each reads is known. -/
theorem fontShowsOnlyInLowMemory : Obligations.FontShowsOnlyInLowMemory := by
  intro font font'
  refine ⟨onlyChanges_setMem (State.resetWith font) (Memory.ofFont font'), fun a h => ⟨?_, ?_⟩, fun a h => ?_⟩
  · rw [State.resetWith_readByte, dif_pos h]
  · rw [State.resetWith_readByte, dif_pos h]
  · rw [State.resetWith_readByte, State.resetWith_readByte, dif_neg (by omega), dif_neg (by omega)]

/-- Settles O14: the default is one of the fonts. -/
theorem invariantHoldsAtReset : Obligations.InvariantHoldsAtReset :=
  ⟨State.resetWith_default ▸ State.resetWith_Inv defaultFont, State.resetWith_Inv⟩

/-- Settles O58: with the default FONT nothing is listed, and the bytes are those of its table. -/
theorem resetIsResetWithDefaultFont : Obligations.ResetIsResetWithDefaultFont :=
  ⟨State.resetWith_default, by decide⟩

end Sys2Proof.Machine
end

section
/-! PROOFS. The access map of a Step (spec/10_state.md R42) and the two facts about its fields that a map does not give:
where the program counter stands (R34), and that no instruction reads ST (R36). -/

namespace Sys2Proof.Machine

/-! The state an instruction is run in. -/

@[simp] theorem State.afterFetch_pc (s : State) : s.afterFetch.pc = s.pc + 2 := rfl

@[simp] theorem State.afterFetch_stack (s : State) : s.afterFetch.stack = s.stack :=
  onlyChanges_afterFetch s .stack (by decide)

@[simp] theorem State.afterFetch_getV (s : State) (j : Reg) : s.afterFetch.getV j = s.getV j :=
  onlyChanges_afterFetch s .v (by decide) j

@[simp] theorem State.afterFetch_keyDownAt (s : State) (n : Nat) : s.afterFetch.keyDownAt n = s.keyDownAt n :=
  onlyChanges_afterFetch s .key (by decide) n

@[simp] theorem State.afterFetch_lowestKey (s : State) : s.afterFetch.lowestKey = s.lowestKey := by
  simp only [State.lowestKey, State.afterFetch_keyDownAt]

/-- Fetching does not see ST. -/
theorem State.afterFetch_setSt (s : State) (b : Byte) : (s.setSt b).afterFetch = s.afterFetch.setSt b := by
  rw [State.afterFetch_eq, State.afterFetch_eq]
  rfl

/-! The access map. -/

theorem State.setV_getV_ne (s : State) {x j : Reg} (b : Byte) (h : j ≠ x) : (s.setV x b).getV j = s.getV j :=
  (s.setV_getV x b j).trans (if_neg h)

/-- What a Step changes beside pc and diag, the instruction it ran may write. -/
theorem step_changes {s t : State} (h : step s = .next t) {p : Part} (hp : p ∉ [.pc, .diag]) (hne : ¬ Same s t p) :
    ∃ i, decode s.fetchWord = .instr i ∧ p ∈ partsWritten i := by
  have hfetch : Same s s.afterFetch p := onlyChanges_afterFetch s p hp
  cases hd : decode s.fetchWord with
  | instr i =>
    refine ⟨i, rfl, ?_⟩
    by_contra hni
    exact hne (hfetch.trans (exec_onlyChanges ((step_of_instr hd).symm.trans h) p hni))
  | reject r =>
    have hraise : OnlyChanges [.diag] s.afterFetch t := by
      cases (step_of_reject hd).symm.trans h
      exact onlyChanges_setDiag _ _
    exact absurd (hfetch.trans (hraise p (List.not_mem_of_not_mem_cons hp))) hne

/-- An instruction changes only the registers the access map lets it write. -/
theorem exec_getV {i : Instr} {s t : State} {j : Reg} (h : exec i s = .next t) (hj : ¬ mayWriteV i j) :
    t.getV j = s.getV j := by
  cases i
  case ldVxKk | addVxKk | ldVxVy | orVxVy | andVxVy | xorVxVy | rndVxKk | ldVxDT =>
    cases h
    exact State.setV_getV_ne _ _ hj
  case addVxVy | subVxVy | shrVx | subnVxVy | shlVx =>
    obtain ⟨hx, hf⟩ := not_or.1 hj
    cases h
    exact (State.setV_getV_ne _ _ hf).trans (State.setV_getV_ne _ _ hx)
  case ldVxK x =>
    obtain ⟨-, e⟩ | ⟨k, -, e⟩ := execLdVxK_cases x s <;> cases e.symm.trans h
    · rfl
    · exact State.setV_getV_ne _ _ hj
  case drwVxVyN =>
    cases h
    exact (State.setV_getV_ne _ _ hj).trans (onlyChanges_noteAccesses s _ _ .v (by decide) j)
  case ldVxMemI x =>
    cases h
    exact (State.loadRegs_getV ..).trans (if_neg (mt (mem_regsUpTo x j).1 hj))
  all_goals exact exec_onlyChanges h .v (by simp [partsWritten]) j

/-- A Step changes only the registers the access map lets its instruction write. -/
theorem step_changes_getV {s t : State} (h : step s = .next t) {j : Reg} (hne : t.getV j ≠ s.getV j) :
    ∃ i, decode s.fetchWord = .instr i ∧ mayWriteV i j := by
  obtain ⟨i, hi, -⟩ := step_changes h (p := .v) (by decide) fun hsame => hne (hsame j)
  refine ⟨i, hi, ?_⟩
  by_contra hj
  exact hne ((exec_getV ((step_of_instr hi).symm.trans h) hj).trans (s.afterFetch_getV j))

/-! Which instructions may write a part. -/

theorem i_mem_partsWritten {i : Instr} (h : Part.i ∈ partsWritten i) :
    ∃ x nnn, i ∈ [.ldINnn nnn, .addIVx x, .ldFVx x, .ldMemIVx x, .ldVxMemI x] := by
  cases i <;> simp [partsWritten] at h ⊢

theorem stack_mem_partsWritten {i : Instr} (h : Part.stack ∈ partsWritten i) : ∃ nnn, i ∈ [.callNnn nnn, .ret] := by
  cases i <;> simp [partsWritten] at h ⊢

theorem dt_mem_partsWritten {i : Instr} (h : Part.dt ∈ partsWritten i) : ∃ x, i = .ldDTVx x := by
  cases i <;> simp [partsWritten] at h ⊢

theorem st_mem_partsWritten {i : Instr} (h : Part.st ∈ partsWritten i) : ∃ x, i = .ldSTVx x := by
  cases i <;> simp [partsWritten] at h ⊢

theorem fb_mem_partsWritten {i : Instr} (h : Part.fb ∈ partsWritten i) : ∃ x y n, i ∈ [.cls, .drwVxVyN x y n] := by
  cases i <;> simp [partsWritten] at h ⊢

theorem mem_mem_partsWritten {i : Instr} (h : Part.mem ∈ partsWritten i) : ∃ x, i ∈ [.ldBVx x, .ldMemIVx x] := by
  cases i <;> simp [partsWritten] at h ⊢

/-- Settles O17: what a Step changes is in the list of parts its instruction may write, and each list of writers is read
off `partsWritten`. -/
theorem accessMapOfStep : Obligations.AccessMapOfStep := by
  intro s t h
  refine ⟨fun j hne => step_changes_getV h hne, fun hne => ?_, fun hne => ?_, fun hne => ?_, fun hne => ?_,
    fun hne => ?_, fun ⟨a, hne⟩ => ?_, ?_⟩
  · obtain ⟨i, hi, hm⟩ := step_changes h (p := .i) (by decide) hne
    obtain ⟨x, nnn, hw⟩ := i_mem_partsWritten hm
    exact ⟨x, nnn, hi ▸ List.mem_map_of_mem hw⟩
  · obtain ⟨i, hi, hm⟩ := step_changes h (p := .stack) (by decide) hne
    obtain ⟨nnn, hw⟩ := stack_mem_partsWritten hm
    exact ⟨nnn, hi ▸ List.mem_map_of_mem hw⟩
  · obtain ⟨i, hi, hm⟩ := step_changes h (p := .dt) (by decide) hne
    obtain ⟨x, rfl⟩ := dt_mem_partsWritten hm
    exact ⟨x, hi⟩
  · obtain ⟨i, hi, hm⟩ := step_changes h (p := .st) (by decide) hne
    obtain ⟨x, rfl⟩ := st_mem_partsWritten hm
    exact ⟨x, hi⟩
  · obtain ⟨i, hi, hm⟩ := step_changes h (p := .fb) (by decide) (mt State.fb_eq_of_pixel_eq hne)
    obtain ⟨x, y, n, hw⟩ := fb_mem_partsWritten hm
    exact ⟨x, y, n, hi ▸ List.mem_map_of_mem hw⟩
  · obtain ⟨i, hi, hm⟩ := step_changes h (p := .mem) (by decide) fun hsame => hne (hsame a)
    obtain ⟨x, hw⟩ := mem_mem_partsWritten hm
    exact ⟨x, hi ▸ List.mem_map_of_mem hw⟩
  · obtain ⟨t', ht', hkey, -⟩ := step_next s
    cases ht'.symm.trans h
    exact hkey

/-! The program counter. -/

/-- Where pc stands once the fetched instruction has run (R34). -/
theorem exec_afterFetch_pc {i : Instr} {s t : State} (h : exec i s.afterFetch = .next t) : t.pc = pcAfter s (some i) := by
  cases i
  case jpNnn | callNnn => cases h; rfl
  case jpV0Nnn => cases h; simp [pcAfter, indexedTarget]
  case ret =>
    cases h
    obtain ⟨a, rest, hstack, e⟩ | ⟨hstack, e⟩ := s.afterFetch.popToPc_cases <;> rw [e] <;>
      rw [State.afterFetch_stack] at hstack <;> simp [pcAfter, hstack]
  case seVxKk | sneVxKk | seVxVy | sneVxVy | skpVx =>
    cases h
    simp [pcAfter, State.skipIf_eq, BitVec.add_assoc]
  case sknpVx x =>
    cases h
    cases hk : s.keyDownAt (s.getV x).toNat <;> simp [pcAfter, State.skipIf_eq, BitVec.add_assoc, hk]
  case ldVxK x =>
    obtain ⟨hk, e⟩ | ⟨k, hk, e⟩ := execLdVxK_cases x s.afterFetch <;> cases e.symm.trans h <;>
      rw [State.afterFetch_lowestKey] at hk <;> simp [pcAfter, hk]
  all_goals exact exec_onlyChanges h .pc (by simp [partsWritten])

/-- Settles O18: `exec_afterFetch_pc` for an instruction; an unknown opcode leaves pc where the fetch put it. -/
theorem programCounterAfterStep : Obligations.ProgramCounterAfterStep := by
  intro s
  cases hd : decode s.fetchWord with
  | instr i =>
    obtain ⟨t, ht, -⟩ := exec_next i s.afterFetch
    exact ⟨t, (step_of_instr hd).trans ht, exec_afterFetch_pc ht⟩
  | reject r => exact ⟨_, step_of_reject hd, rfl⟩

/-! ST is written and never read. -/

/-- LD ST,Vx overwrites ST. -/
theorem exec_ldSTVx_setSt (x : Reg) (s : State) (b : Byte) : exec (.ldSTVx x) (s.setSt b) = exec (.ldSTVx x) s := rfl

/-- An instruction that reads no key and is not LD ST,Vx runs the same whatever ST holds, and leaves it there. -/
theorem exec_setSt_of_not_readsKeys {i : Instr} {s t : State} (b : Byte) (h : exec i s = .next t) (hk : ¬ ReadsKeys i)
    (hst : ∀ x, i ≠ .ldSTVx x) : exec i (s.setSt b) = .next (t.setSt b) := by
  obtain ⟨t', ht', hb⟩ := exec_outside s.key b i s (fun x e => hk (by rw [e]; trivial)) (fun x e => hk (by rw [e]; trivial))
    (fun x e => hk (by rw [e]; trivial)) hst
  obtain ⟨t'', ht'', hkey, -⟩ := exec_next i s
  cases ht'.symm.trans h
  cases ht''.symm.trans h
  have hset : t.setSt b = { t with key := s.key, st := b } := by rw [← hkey]; rfl
  rw [hset]
  exact hb

/-- Every instruction but LD ST,Vx runs the same whatever ST holds, and leaves it there. -/
theorem exec_setSt {i : Instr} {s t : State} (b : Byte) (h : exec i s = .next t) (hst : ∀ x, i ≠ .ldSTVx x) :
    exec i (s.setSt b) = .next (t.setSt b) := by
  cases i
  case skpVx | sknpVx =>
    cases h
    simp only [exec, execSkpVx, execSknpVx, State.skipIf_eq]
    rfl
  case ldVxK x =>
    obtain ⟨hk, e⟩ | ⟨k, hk, e⟩ := execLdVxK_cases x s <;> cases e.symm.trans h <;>
      simp only [exec, execLdVxK, State.setSt_lowestKey, hk] <;> rfl
  all_goals exact exec_setSt_of_not_readsKeys b h id hst

/-- Settles O19: fetch, decode and the unknown opcode do not see ST, and an instruction either overwrites it or does not
see it. -/
theorem soundTimerCannotBeRead : Obligations.SoundTimerCannotBeRead := by
  intro s b
  show ∃ t, step s = .next t ∧ (_ → step (s.setSt b) = .next t) ∧ (_ → step (s.setSt b) = .next (t.setSt b))
  cases hd : decode s.fetchWord with
  | instr i =>
    obtain ⟨t, ht, -⟩ := exec_next i s.afterFetch
    have hstep : step (s.setSt b) = exec i (s.afterFetch.setSt b) := by
      rw [← State.afterFetch_setSt]
      exact step_of_instr hd
    refine ⟨t, (step_of_instr hd).trans ht, fun ⟨x, hx⟩ => ?_, fun hx => ?_⟩
    · cases hx
      exact (hstep.trans (exec_ldSTVx_setSt x _ b)).trans ht
    · exact hstep.trans (exec_setSt b ht fun x e => hx ⟨x, e ▸ rfl⟩)
  | reject r =>
    refine ⟨_, step_of_reject hd, fun ⟨x, hx⟩ => ?_, fun _ => ?_⟩
    · cases hx
    · rw [step_of_reject (s := s.setSt b) hd, State.afterFetch_setSt]
      rfl

end Sys2Proof.Machine
end

section
/-! PROOFS. Memory as a Step's fetch sees it (spec/20_memory.md): a fetch that reaches past the end of memory is flagged and
never blocks (R63, R122), and a fetch reads the bytes the last store left (R73). -/

namespace Sys2Proof.Machine

/-! A fetch that leaves memory. -/

/-- MEM_OOB raised by the fetch is still raised when the Step ends, whatever word was fetched. -/
theorem step_memOob_of_fetch_oob {s : State} (h : 4095 ≤ s.pc.toNat) :
    ∃ t, step s = .next t ∧ t.diag.memOob = true := by
  have hfetch : s.afterFetch.diag.memOob = true := by
    rw [State.afterFetch_eq]
    exact decide_eq_true h
  cases hd : decode s.fetchWord with
  | instr i =>
    obtain ⟨t, ht, -, -, -, hoob⟩ := exec_diag i s.afterFetch
    exact ⟨t, (step_of_instr hd).trans ht, hoob.2 (.inl hfetch)⟩
  | reject r => exact ⟨_, step_of_reject hd, hfetch⟩

/-- Settles O8: outside memory the word is 0x0000, an unknown opcode; at 0xFFF only the low byte is out of bounds, which
reads 0x00. -/
theorem fetchOutsideMemory : Obligations.FetchOutsideMemory := by
  refine fun s => ⟨fun hpc => ?_, fun hpc => ⟨?_, ?_⟩⟩
  · have hdec : decode s.fetchWord = .reject .unknown0 := by
      rw [State.fetchWord_oob hpc]
      decide
    rw [step_of_reject hdec, State.afterFetch_eq, decide_eq_true (show 4095 ≤ s.pc.toNat by omega)]
    rfl
  · have hlow : s.readByte (0xFFF + 1) = 0x00#8 := s.readByte_oob (Nat.le_refl _)
    rw [State.fetchWord, hpc, ← hlow]
    rfl
  · exact step_memOob_of_fetch_oob (by rw [hpc]; decide)

/-! A fetch of what was just stored. -/

/-- A fetch wholly in bounds leaves diag cleared. -/
theorem State.afterFetch_of_in_bounds {s : State} (h : s.pc.toNat + 1 < 4096) :
    s.afterFetch = { s with pc := s.pc + 2, diag := Diag.none } := by
  rw [State.afterFetch_eq, decide_eq_false (show ¬ 4095 ≤ s.pc.toNat by omega)]
  rfl

/-- An instruction fetched wholly in bounds runs with diag cleared. -/
theorem step_of_instr_in_bounds {s : State} {i : Instr} (hpc : s.pc.toNat + 1 < 4096)
    (h : decode s.fetchWord = .instr i) : step s = exec i { s with pc := s.pc + 2, diag := Diag.none } := by
  rw [step_of_instr h, State.afterFetch_of_in_bounds hpc]

/-- After a register dump the byte at I + k is V[k], for every dumped register whose byte is in bounds (R185). -/
theorem State.dump_readByte (s : State) {x k : Reg} (hk : k.val ≤ x.val) (hb : s.i.toNat + k.val < 4096) :
    (s.writeBytes s.dataBase (s.regBytes x)).readByte (s.i.toNat + k.val) = s.getV k := by
  have hlen := s.regBytes_length x
  have hoff : s.i.toNat + k.val - s.dataBase = k.val := Nat.add_sub_cancel_left ..
  rw [State.writeBytes_readByte, dif_pos ⟨⟨Nat.le_add_right .., by omega⟩, hb⟩]
  simp only [hoff]
  exact s.regBytes_get x k _

/-- The word at the address of a fresh dump of at least two registers is V[0], V[1] (R62, R73). -/
theorem State.readWord_dump (s : State) {x : Reg} (hx : 1 ≤ x.val) (hb : s.i.toNat + 1 < 4096) :
    (s.writeBytes s.dataBase (s.regBytes x)).readWord s.i.toNat = s.getV 0 ++ s.getV 1 := by
  have h0 : (s.writeBytes s.dataBase (s.regBytes x)).readByte s.i.toNat = s.getV 0 :=
    s.dump_readByte (k := 0) (Nat.zero_le _) (Nat.lt_of_succ_lt hb)
  have h1 : (s.writeBytes s.dataBase (s.regBytes x)).readByte (s.i.toNat + 1) = s.getV 1 :=
    s.dump_readByte (k := 1) hx hb
  rw [State.readWord, h0, h1, wordOfBytes]

/-- Settles O42: the fetch at the old I reads the two bytes just dumped, both in bounds, so the instruction they encode
runs with diag cleared. -/
theorem fetchSeesTheLastStore : Obligations.FetchSeesTheLastStore := by
  intro x s i hx hb hdec
  rw [← s.readWord_dump hx hb] at hdec
  exact ⟨_, rfl, step_of_instr_in_bounds hb hdec⟩

end Sys2Proof.Machine
end

section
/-! PROOFS. Decoding and encoding (spec/30_encoding.md R94 to R99, R104). Each instruction has its row of the opcode map; a word
that matches a row decodes to the row's instruction with the word's own fields, and encoding writes those fields back. -/

namespace Sys2Proof.Machine

/-! The fields as the opcode map reads them are the fields as the decoder reads them. -/

@[simp] theorem wordX_eq_xField (w : Word) : wordX w = xField w := (xField_eq w).symm
@[simp] theorem wordY_eq_yField (w : Word) : wordY w = yField w := (yField_eq w).symm
@[simp] theorem wordN_eq_nField (w : Word) : wordN w = nField w := (nField_eq w).symm
@[simp] theorem wordKk_eq_kkField (w : Word) : wordKk w = kkField w := (kkField_eq w).symm
@[simp] theorem wordNnn_eq_nnnField (w : Word) : wordNnn w = nnnField w := (nnnField_eq w).symm

/-! The row of an instruction. -/

theorem ctorIdx_lt_opcodeRows_length (i : Instr) : i.ctorIdx < opcodeRows.length := by
  cases i <;> exact Nat.le_of_ble_eq_true rfl

/-- The instructions stand in the order of the opcode map, so an instruction's row is the one at its constructor's place. -/
def opcodeRow (i : Instr) : OpcodeRow := opcodeRows[i.ctorIdx]'(ctorIdx_lt_opcodeRows_length i)

theorem opcodeRow_mem (i : Instr) : opcodeRow i ∈ opcodeRows := List.getElem_mem _

theorem opcodeRow_mask (i : Instr) : (opcodeRow i).mask = Laws.rowMask i := by cases i <;> rfl

theorem opcodeRow_mtch (i : Instr) : (opcodeRow i).mtch = Laws.rowMatch i := by cases i <;> rfl

/-- What a row builds has that row. -/
theorem opcodeRow_build {row : OpcodeRow} (h : row ∈ opcodeRows) (w : Word) : opcodeRow (row.build w) = row := by
  revert row
  simp only [opcodeRows, opcodeRowsLow, opcodeRowsHigh, List.forall_mem_append, List.forall_mem_cons]
  simp [opcodeRow, opcodeRows, opcodeRowsLow, opcodeRowsHigh, Instr.ctorIdx]

/-- A word matches the row of what it decodes to. -/
theorem and_mask_of_decode {w : Word} {i : Instr} (h : decode w = .instr i) :
    w &&& (opcodeRow i).mask = (opcodeRow i).mtch := by
  rw [opcodeRow_mask, opcodeRow_mtch, Laws.decode_matches h]

/-! The two levels of the dispatch (R94), by the mask of the row. -/

theorem opField_of_row {w : Word} {op : BitVec 4} (h : w &&& 0xF000#16 = op ++ 0x000#12) : opField w = op :=
  (and_F000_iff w op).1 h

/-- A row that compares op and the low byte: the family op names, then the low byte within it. -/
theorem decode_of_lowByte {w : Word} {op : BitVec 4} {kk : Imm8} {family answer : Decoded}
    (h : w &&& 0xF0FF#16 = op ++ (0x0#4 ++ kk)) (hop : opField w = op → decode w = family)
    (hkk : kkField w = kk → family = answer) : decode w = answer :=
  have ⟨ho, hk⟩ := (and_F0FF_iff w op kk).1 h
  (hop ho).trans (hkk hk)

/-- A row that compares op and the low nibble. -/
theorem decode_of_lowNibble {w : Word} {op n : BitVec 4} {family answer : Decoded}
    (h : w &&& 0xF00F#16 = op ++ (0x00#8 ++ n)) (hop : opField w = op → decode w = family)
    (hn : nField w = n → family = answer) : decode w = answer :=
  have ⟨ho, hn'⟩ := (and_F00F_iff w op n).1 h
  (hop ho).trans (hn hn')

/-- A word that matches a row decodes to the row's instruction with the fields of the word: row by row, in the order of the
opcode map. -/
theorem decode_of_row {row : OpcodeRow} (hrow : row ∈ opcodeRows) {w : Word} (h : w &&& row.mask = row.mtch) :
    decode w = .instr (row.build w) := by
  revert row w
  simp only [opcodeRows, opcodeRowsLow, opcodeRowsHigh, List.forall_mem_append, List.forall_mem_cons,
    wordX_eq_xField, wordY_eq_yField, wordN_eq_nField, wordKk_eq_kkField, wordNnn_eq_nnnField]
  refine ⟨⟨⟨?cls, ?ret, ?jpNnn, ?callNnn, ?seVxKk, ?sneVxKk, ?seVxVy, ?ldVxKk, ?addVxKk, List.forall_mem_nil _⟩,
      ?ldVxVy, ?orVxVy, ?andVxVy, ?xorVxVy, ?addVxVy, ?subVxVy, ?shrVx, ?subnVxVy, ?shlVx, ?sneVxVy,
      List.forall_mem_nil _⟩,
    ⟨?ldINnn, ?jpV0Nnn, ?rndVxKk, ?drwVxVyN, ?skpVx, ?sknpVx, List.forall_mem_nil _⟩,
      ?ldVxDT, ?ldVxK, ?ldDTVx, ?ldSTVx, ?addIVx, ?ldFVx, ?ldBVx, ?ldMemIVx, ?ldVxMemI, List.forall_mem_nil _⟩ <;>
    intro w h
  case cls => exact decode_of_lowByte h decode_op0 decode0_E0
  case ret => exact decode_of_lowByte h decode_op0 decode0_EE
  case jpNnn => exact decode_op1 (opField_of_row h)
  case callNnn => exact decode_op2 (opField_of_row h)
  case seVxKk => exact decode_op3 (opField_of_row h)
  case sneVxKk => exact decode_op4 (opField_of_row h)
  case seVxVy => exact decode_op5 (opField_of_row h)
  case ldVxKk => exact decode_op6 (opField_of_row h)
  case addVxKk => exact decode_op7 (opField_of_row h)
  case ldVxVy => exact decode_of_lowNibble h decode_op8 decode8_0
  case orVxVy => exact decode_of_lowNibble h decode_op8 decode8_1
  case andVxVy => exact decode_of_lowNibble h decode_op8 decode8_2
  case xorVxVy => exact decode_of_lowNibble h decode_op8 decode8_3
  case addVxVy => exact decode_of_lowNibble h decode_op8 decode8_4
  case subVxVy => exact decode_of_lowNibble h decode_op8 decode8_5
  case shrVx => exact decode_of_lowNibble h decode_op8 decode8_6
  case subnVxVy => exact decode_of_lowNibble h decode_op8 decode8_7
  case shlVx => exact decode_of_lowNibble h decode_op8 decode8_E
  case sneVxVy => exact decode_op9 (opField_of_row h)
  case ldINnn => exact decode_opA (opField_of_row h)
  case jpV0Nnn => exact decode_opB (opField_of_row h)
  case rndVxKk => exact decode_opC (opField_of_row h)
  case drwVxVyN => exact decode_opD (opField_of_row h)
  case skpVx => exact decode_of_lowByte h decode_opE decodeE_9E
  case sknpVx => exact decode_of_lowByte h decode_opE decodeE_A1
  case ldVxDT => exact decode_of_lowByte h decode_opF decodeF_07
  case ldVxK => exact decode_of_lowByte h decode_opF decodeF_0A
  case ldDTVx => exact decode_of_lowByte h decode_opF decodeF_15
  case ldSTVx => exact decode_of_lowByte h decode_opF decodeF_18
  case addIVx => exact decode_of_lowByte h decode_opF decodeF_1E
  case ldFVx => exact decode_of_lowByte h decode_opF decodeF_29
  case ldBVx => exact decode_of_lowByte h decode_opF decodeF_33
  case ldMemIVx => exact decode_of_lowByte h decode_opF decodeF_55
  case ldVxMemI => exact decode_of_lowByte h decode_opF decodeF_65

/-- The operands of a decoded instruction are the word's fields. -/
theorem build_of_decode {w : Word} {i : Instr} (h : decode w = .instr i) : (opcodeRow i).build w = i := by
  have := decode_of_row (opcodeRow_mem i) (and_mask_of_decode h)
  rw [h] at this
  exact (Decoded.instr.inj this).symm

/-! The opcode map (R96). -/

theorem decode_eq_build_iff {row : OpcodeRow} (hrow : row ∈ opcodeRows) (w : Word) :
    decode w = .instr (row.build w) ↔ w &&& row.mask = row.mtch := by
  refine ⟨fun h => ?_, decode_of_row hrow⟩
  have := and_mask_of_decode h
  rwa [opcodeRow_build hrow] at this

/-- A word that matches two rows decodes to the instruction of both, and an instruction has one row. -/
theorem row_eq_of_matches {p q : OpcodeRow} (hp : p ∈ opcodeRows) (hq : q ∈ opcodeRows) {w : Word}
    (hwp : w &&& p.mask = p.mtch) (hwq : w &&& q.mask = q.mtch) : p = q := by
  have : p.build w = q.build w := Decoded.instr.inj ((decode_of_row hp hwp).symm.trans (decode_of_row hq hwq))
  rw [← opcodeRow_build hp w, this, opcodeRow_build hq]

theorem opcodeRows_mtch_nodup : (opcodeRows.map OpcodeRow.mtch).Nodup := by decide

/-- Settles O2: `decode_of_row` and its converse; two rows that select one word are one row, and no two of the 34 have the same
match. -/
theorem opcodeMapSelectsExactly : Obligations.OpcodeMapSelectsExactly := by
  refine ⟨fun row hrow w => decode_eq_build_iff hrow w, ?_, fun w i h => ⟨_, opcodeRow_mem i, (build_of_decode h).symm⟩⟩
  refine (List.pairwise_map.1 opcodeRows_mtch_nodup).imp_of_mem fun hp hq hne w ⟨hwp, hwq⟩ => ?_
  exact hne (congrArg OpcodeRow.mtch (row_eq_of_matches hp hq hwp hwq))

/-! The round trip (R104). -/

/-- The word of an instruction matches the instruction's row. -/
theorem encode_and_mask (i : Instr) : encode i &&& (opcodeRow i).mask = (opcodeRow i).mtch := by
  rw [opcodeRow_mask, opcodeRow_mtch]
  open Laws.CanonicalWord in
  cases i
  exacts [cls, ret, jpNnn _, callNnn _, seVxKk _ _, sneVxKk _ _, seVxVy _ _, ldVxKk _ _, addVxKk _ _, ldVxVy _ _,
    orVxVy _ _, andVxVy _ _, xorVxVy _ _, addVxVy _ _, subVxVy _ _, shrVx _, subnVxVy _ _, shlVx _, sneVxVy _ _,
    ldINnn _, jpV0Nnn _, rndVxKk _ _, drwVxVyN _ _ _, skpVx _, sknpVx _, ldVxDT _, ldVxK _, ldDTVx _, ldSTVx _,
    addIVx _, ldFVx _, ldBVx _, ldMemIVx _, ldVxMemI _]

/-- The fields of the word of an instruction are its operands. -/
theorem build_encode (i : Instr) : (opcodeRow i).build (encode i) = i := by
  cases i <;> simp [opcodeRow, opcodeRows, opcodeRowsLow, opcodeRowsHigh, Instr.ctorIdx, encode]

theorem decode_encode (i : Instr) : decode (encode i) = .instr i := by
  rw [decode_of_row (opcodeRow_mem i) (encode_and_mask i), build_encode]

theorem decodeBytes_encodeBytes (i : Instr) (rest : List Byte) :
    decodeBytes (encodeBytes i ++ rest) = .ok (i, rest) := by
  show decodeBytes (hiByte (encode i) :: loByte (encode i) :: rest) = _
  rw [decodeBytes, wordOfBytes_hi_lo, decode_encode]

/-! The fields of a word put together again, by format (R92): the word itself, or its canonical form where the format ignores
bits (R99). -/

section
variable {w : Word} {op n : BitVec 4} {kk : Imm8}

theorem wordNNN_of_row (h : w &&& 0xF000#16 = op ++ 0x000#12) : wordNNN op (wordNnn w) = w := by
  rw [← opField_of_row h, wordNnn_eq_nnnField, wordNNN_fields]

theorem wordXKK_of_row (h : w &&& 0xF000#16 = op ++ 0x000#12) : wordXKK op (wordX w) (wordKk w) = w := by
  rw [← opField_of_row h, wordX_eq_xField, wordKk_eq_kkField, wordXKK_fields]

theorem wordXY_canonical_of_row (h : w &&& 0xF000#16 = op ++ 0x000#12) :
    wordXYN op (wordX w) (wordY w) 0x0#4 = w &&& 0xFFF0#16 := by
  rw [← opField_of_row h, wordX_eq_xField, wordY_eq_yField, and_FFF0_eq]

theorem wordXYN_of_row (h : w &&& 0xF000#16 = op ++ 0x000#12) :
    wordXYN op (wordX w) (wordY w) (wordN w) = w := by
  rw [← opField_of_row h, wordX_eq_xField, wordY_eq_yField, wordN_eq_nField, wordXYN_fields]

theorem wordXYF_of_row (h : w &&& 0xF00F#16 = op ++ (0x00#8 ++ n)) : wordXYN op (wordX w) (wordY w) n = w := by
  obtain ⟨rfl, rfl⟩ := (and_F00F_iff w op n).1 h
  rw [wordX_eq_xField, wordY_eq_yField, wordXYN_fields]

theorem wordXYF_canonical_of_row (h : w &&& 0xF00F#16 = op ++ (0x00#8 ++ n)) :
    wordXYN op (wordX w) 0 n = w &&& 0xFF0F#16 := by
  obtain ⟨rfl, rfl⟩ := (and_F00F_iff w op n).1 h
  rw [wordX_eq_xField, and_FF0F_eq]

theorem wordZ_canonical_of_row (h : w &&& 0xF0FF#16 = op ++ (0x0#4 ++ kk)) : wordXKK op 0 kk = w &&& 0xF0FF#16 := by
  obtain ⟨rfl, rfl⟩ := (and_F0FF_iff w op kk).1 h
  rw [and_F0FF_eq]

theorem wordXF_of_row (h : w &&& 0xF0FF#16 = op ++ (0x0#4 ++ kk)) : wordXKK op (wordX w) kk = w := by
  obtain ⟨rfl, rfl⟩ := (and_F0FF_iff w op kk).1 h
  rw [wordX_eq_xField, wordXKK_fields]

end

/-- By format: the instruction holds the fields of the word, and the encoder puts them back. -/
theorem encode_of_decode {w : Word} {i : Instr} (h : decode w = .instr i) : encode i = canonicalWord i w := by
  have hw := and_mask_of_decode h
  have hi := build_of_decode h
  cases i
  case cls | ret => exact wordZ_canonical_of_row hw
  case jpNnn | callNnn | ldINnn | jpV0Nnn =>
    cases hi
    exact wordNNN_of_row hw
  case seVxKk | sneVxKk | ldVxKk | addVxKk | rndVxKk =>
    cases hi
    exact wordXKK_of_row hw
  case seVxVy | sneVxVy =>
    cases hi
    exact wordXY_canonical_of_row hw
  case drwVxVyN =>
    cases hi
    exact wordXYN_of_row hw
  case shrVx | shlVx =>
    cases hi
    exact wordXYF_canonical_of_row hw
  case ldVxVy | orVxVy | andVxVy | xorVxVy | addVxVy | subVxVy | subnVxVy =>
    cases hi
    exact wordXYF_of_row hw
  case skpVx | sknpVx | ldVxDT | ldVxK | ldDTVx | ldSTVx | addIVx | ldFVx | ldBVx | ldMemIVx | ldVxMemI =>
    cases hi
    exact wordXF_of_row hw

/-- Settles O1: word, bytes and canonical word. -/
theorem decodeUndoesEncode : Obligations.DecodeUndoesEncode :=
  ⟨decode_encode, decodeBytes_encodeBytes, fun _ _ => encode_of_decode⟩

end Sys2Proof.Machine
end

section
/-! PROOFS. The unknown opcodes (spec/30_encoding.md R98): each family that has a second level rejects under its own name. -/

namespace Sys2Proof.Machine

/-- The low nibbles family 8 does not name. -/
theorem nibble_unknown8_iff (n : Imm4) :
    n ∉ [0x0#4, 0x1#4, 0x2#4, 0x3#4, 0x4#4, 0x5#4, 0x6#4, 0x7#4, 0xE#4] ↔
      n ∈ [0x8#4, 0x9#4, 0xA#4, 0xB#4, 0xC#4, 0xD#4, 0xF#4] := by
  revert n
  decide

/-! What each family rejects. -/

section
variable {w : Word} {r : Reject}

theorem decode0_eq_reject_iff : decode0 w = .reject r ↔ r = .unknown0 ∧ kkField w ∉ [0xE0#8, 0xEE#8] := by
  unfold decode0
  split <;> simp_all [eq_comm]

theorem decode8_eq_reject_iff : decode8 w = .reject r ↔
    r = .unknown8 ∧ nField w ∈ [0x8#4, 0x9#4, 0xA#4, 0xB#4, 0xC#4, 0xD#4, 0xF#4] := by
  rw [← nibble_unknown8_iff]
  unfold decode8
  split <;> simp_all [eq_comm]

theorem decodeE_eq_reject_iff : decodeE w = .reject r ↔ r = .unknownE ∧ kkField w ∉ [0x9E#8, 0xA1#8] := by
  unfold decodeE
  split <;> simp_all [eq_comm]

theorem decodeF_eq_reject_iff : decodeF w = .reject r ↔ r = .unknownF ∧
    kkField w ∉ [0x07#8, 0x0A#8, 0x15#8, 0x18#8, 0x1E#8, 0x29#8, 0x33#8, 0x55#8, 0x65#8] := by
  unfold decodeF
  split <;> simp_all [eq_comm]

/-- A word is rejected by the second level of its family. -/
theorem decode_eq_reject_iff : decode w = .reject r ↔
    opField w = 0x0#4 ∧ decode0 w = .reject r ∨ opField w = 0x8#4 ∧ decode8 w = .reject r ∨
    opField w = 0xE#4 ∧ decodeE w = .reject r ∨ opField w = 0xF#4 ∧ decodeF w = .reject r := by
  constructor
  · intro h
    unfold decode at h
    split at h
    case h_1 hop => exact .inl ⟨hop, h⟩
    case h_9 hop => exact .inr (.inl ⟨hop, h⟩)
    case h_15 hop => exact .inr (.inr (.inl ⟨hop, h⟩))
    case h_16 =>
      have hop : opField w = 0xF#4 := opField_F ‹_› ‹_› ‹_› ‹_› ‹_› ‹_› ‹_› ‹_› ‹_› ‹_› ‹_› ‹_› ‹_› ‹_› ‹_›
      exact .inr (.inr (.inr ⟨hop, h⟩))
    all_goals cases h
  · rintro (⟨hop, h⟩ | ⟨hop, h⟩ | ⟨hop, h⟩ | ⟨hop, h⟩)
    · exact (decode_op0 hop).trans h
    · exact (decode_op8 hop).trans h
    · exact (decode_opE hop).trans h
    · exact (decode_opF hop).trans h

end

/-! The compared fields as numbers. -/

theorem opField_eq_iff (w : Word) (op : BitVec 4) : opField w = op ↔ w.toNat / 4096 = op.toNat := by
  rw [← BitVec.toNat_inj, opField, BitVec.extractLsb'_toNat, Nat.shiftRight_eq_div_pow,
    Nat.mod_eq_of_lt (by have := w.isLt; omega)]

theorem kkField_mem_iff (w : Word) (l : List Byte) : kkField w ∈ l ↔ w.toNat % 256 ∈ l.map BitVec.toNat := by
  rw [← List.mem_map_of_injective (fun _ _ => BitVec.eq_of_toNat_eq), kkField_eq, BitVec.toNat_ofNat]

theorem nField_mem_iff (w : Word) (l : List Imm4) : nField w ∈ l ↔ w.toNat % 16 ∈ l.map BitVec.toNat := by
  rw [← List.mem_map_of_injective (fun _ _ => BitVec.eq_of_toNat_eq), nField_eq, BitVec.toNat_ofNat]

/-- Settles O3: `decode_eq_reject_iff`, with what each family rejects and the fields as numbers. -/
theorem unknownOpcodesAreFourGroups : Obligations.UnknownOpcodesAreFourGroups := by
  intro w
  simp [decode_eq_reject_iff, decode0_eq_reject_iff, decode8_eq_reject_iff, decodeE_eq_reject_iff,
    decodeF_eq_reject_iff, opField_eq_iff, kkField_mem_iff, nField_mem_iff, -List.mem_cons]

/-- Settles O4: the decoder, run on twelve words. -/
theorem writtenOutWordsDecode : Obligations.WrittenOutWordsDecode := by
  unfold Obligations.WrittenOutWordsDecode
  decide

end Sys2Proof.Machine
end

section
/-! PROOFS. Assembler lines (spec/30_encoding.md R101): a line is accepted exactly when each number is in range, and an
accepted line is the line of the instruction it stands for. -/

namespace Sys2Proof.Machine

/-! The checks accept exactly the numbers in range, each operand by itself. -/

theorem checkReg_isSome (x : Nat) : (checkReg x).isSome = true ↔ x < 16 := by simp [checkReg]
theorem checkNnn_isSome (v : Nat) : (checkNnn v).isSome = true ↔ v ≤ 0xFFF := by simp [checkNnn]
theorem checkKk_isSome (v : Nat) : (checkKk v).isSome = true ↔ v ≤ 0xFF := by simp [checkKk]
theorem checkN_isSome (v : Nat) : (checkN v).isSome = true ↔ v ≤ 15 := by simp [checkN]

/-- A check that comes after the one on register x, and does not depend on it. -/
theorem checkReg_bind_isSome {α : Type} {g : Reg → Option α} {p : Prop} (x : Nat) (h : ∀ r, (g r).isSome = true ↔ p) :
    ((checkReg x).bind g).isSome = true ↔ x < 16 ∧ p := by
  rw [← checkReg_isSome]
  cases checkReg x <;> simp [h]

theorem withReg_isSome (f : Reg → Instr) (x : Nat) : (withReg f x).isSome = true ↔ x < 16 := by
  rw [withReg, Option.isSome_map, checkReg_isSome]

theorem withNnn_isSome (f : Imm12 → Instr) (v : Nat) : (withNnn f v).isSome = true ↔ v ≤ 0xFFF := by
  rw [withNnn, Option.isSome_map, checkNnn_isSome]

theorem withRegKk_isSome (f : Reg → Imm8 → Instr) (x v : Nat) :
    (withRegKk f x v).isSome = true ↔ x < 16 ∧ v ≤ 0xFF :=
  checkReg_bind_isSome x fun _ => by rw [Option.isSome_map, checkKk_isSome]

theorem withRegReg_isSome (f : Reg → Reg → Instr) (x y : Nat) :
    (withRegReg f x y).isSome = true ↔ x < 16 ∧ y < 16 :=
  checkReg_bind_isSome x fun _ => by rw [Option.isSome_map, checkReg_isSome]

theorem drw_wellFormed_iff (x y v : Nat) :
    (Line.mk .DRW [.V x, .V y, .num v]).wellFormed = true ↔ x < 16 ∧ y < 16 ∧ v ≤ 15 :=
  checkReg_bind_isSome x fun _ => checkReg_bind_isSome y fun _ => by rw [Option.isSome_map, checkN_isSome]

/-! What was accepted holds the numbers that were written. -/

theorem eq_of_withReg {f : Reg → Instr} {x : Nat} {i : Instr} (h : withReg f x = some i) :
    ∃ r : Reg, x = r.val ∧ i = f r := by
  obtain ⟨r, hr, rfl⟩ := Option.map_eq_some_iff.1 h
  exact ⟨r, Laws.checkReg_eq_some.1 hr, rfl⟩

theorem eq_of_withNnn {f : Imm12 → Instr} {v : Nat} {i : Instr} (h : withNnn f v = some i) :
    ∃ nnn : Imm12, v = nnn.toNat ∧ i = f nnn := by
  obtain ⟨nnn, hn, rfl⟩ := Option.map_eq_some_iff.1 h
  exact ⟨nnn, Laws.checkNnn_eq_some.1 hn, rfl⟩

theorem eq_of_withRegKk {f : Reg → Imm8 → Instr} {x v : Nat} {i : Instr} (h : withRegKk f x v = some i) :
    ∃ (r : Reg) (kk : Imm8), x = r.val ∧ v = kk.toNat ∧ i = f r kk := by
  obtain ⟨r, hr, h⟩ := Option.bind_eq_some_iff.1 h
  obtain ⟨kk, hkk, rfl⟩ := Option.map_eq_some_iff.1 h
  exact ⟨r, kk, Laws.checkReg_eq_some.1 hr, Laws.checkKk_eq_some.1 hkk, rfl⟩

theorem eq_of_withRegReg {f : Reg → Reg → Instr} {x y : Nat} {i : Instr} (h : withRegReg f x y = some i) :
    ∃ r q : Reg, x = r.val ∧ y = q.val ∧ i = f r q := by
  obtain ⟨r, hr, h⟩ := Option.bind_eq_some_iff.1 h
  obtain ⟨q, hq, rfl⟩ := Option.map_eq_some_iff.1 h
  exact ⟨r, q, Laws.checkReg_eq_some.1 hr, Laws.checkReg_eq_some.1 hq, rfl⟩

/-- A line that stands for an instruction is its line: one case for each shape, taken together by operand format. -/
theorem eq_toLine_of_toInstr? {l : Line} {i : Instr} (h : l.toInstr? = some i) : l = i.toLine := by
  obtain ⟨m, ops⟩ := l
  simp only [Line.toInstr?] at h
  split at h
  -- no operand
  case h_1 | h_2 =>
    cases h
    rfl
  -- nnn
  case h_3 | h_4 | h_5 | h_12 =>
    obtain ⟨nnn, rfl, rfl⟩ := eq_of_withNnn h
    rfl
  -- Vx, kk
  case h_6 | h_8 | h_10 | h_21 | h_31 =>
    obtain ⟨r, kk, rfl, rfl, rfl⟩ := eq_of_withRegKk h
    rfl
  -- Vx, Vy
  case h_7 | h_9 | h_11 | h_22 | h_24 | h_25 | h_26 | h_27 | h_28 =>
    obtain ⟨r, q, rfl, rfl, rfl⟩ := eq_of_withRegReg h
    rfl
  -- Vx, Vy, n
  case h_32 =>
    obtain ⟨r, hr, h⟩ := Option.bind_eq_some_iff.1 h
    obtain ⟨q, hq, h⟩ := Option.bind_eq_some_iff.1 h
    obtain ⟨n, hn, rfl⟩ := Option.map_eq_some_iff.1 h
    rw [Laws.checkReg_eq_some.1 hr, Laws.checkReg_eq_some.1 hq, Laws.checkN_eq_some.1 hn]
    rfl
  -- a line of no shape
  case h_35 => cases h
  -- Vx
  all_goals
    obtain ⟨r, rfl, rfl⟩ := eq_of_withReg h
    rfl

theorem toInstr?_toLine (i : Instr) : i.toLine.toInstr? = some i := by
  open Laws.Assembles in
  cases i
  exacts [cls, ret, jpNnn _, callNnn _, seVxKk _ _, sneVxKk _ _, seVxVy _ _, ldVxKk _ _, addVxKk _ _, ldVxVy _ _,
    orVxVy _ _, andVxVy _ _, xorVxVy _ _, addVxVy _ _, subVxVy _ _, shrVx _, subnVxVy _ _, shlVx _, sneVxVy _ _,
    ldINnn _, jpV0Nnn _, rndVxKk _ _, drwVxVyN _ _ _, skpVx _, sknpVx _, ldVxDT _, ldVxK _, ldDTVx _, ldSTVx _,
    addIVx _, ldFVx _, ldBVx _, ldMemIVx _, ldVxMemI _]

theorem eq_toLine_of_wellFormed {l : Line} (h : l.wellFormed = true) : ∃ i : Instr, l = i.toLine :=
  (Option.isSome_iff_exists.1 h).imp fun _ => eq_toLine_of_toInstr?

theorem instr_wellFormed (i : Instr) : i.wellFormed = true := beq_iff_eq.2 (toInstr?_toLine i)

/-- Settles O5: each shape is checked by its operand format alone, whatever the mnemonic. -/
theorem writtenOperandsAreRangeChecked : Obligations.WrittenOperandsAreRangeChecked := by
  refine ⟨?none, fun v => ⟨?nnn, withNnn_isSome _ v, withNnn_isSome _ v⟩, ?regKk, ?regReg, drw_wellFormed_iff,
    fun x => ⟨?reg, ?ldFrom, ?ldTo, withReg_isSome _ x⟩, fun _ => eq_toLine_of_wellFormed, instr_wellFormed⟩
  case none => decide
  case nnn =>
    intro m hm
    fin_cases hm <;> exact withNnn_isSome _ v
  case regKk =>
    intro x v m hm
    fin_cases hm <;> exact withRegKk_isSome _ x v
  case regReg =>
    intro x y m hm
    fin_cases hm <;> exact withRegReg_isSome _ x y
  case reg | ldFrom | ldTo =>
    intro _ h
    fin_cases h <;> exact withReg_isSome _ x

end Sys2Proof.Machine
end

section
/-! PROOFS. What one Step does around the instruction it runs (spec/40_step_decode_dispatch.md): fetch, advance and dispatch
(R120), the silent no-op (R124), and what a Step does not depend on: the diag of the Step before (R126), and the keys outside
the key instructions (R128). -/

namespace Sys2Proof.Machine

/-! Fetch, advance and dispatch. -/

/-- The state an instruction is run in, with MEM_OOB told by the address of the low byte (R63, R120). -/
theorem State.afterFetch_eq_lowByte (s : State) : s.afterFetch =
    { s with pc := s.pc + 2, diag := ⟨false, false, false, decide (4096 ≤ s.pc.toNat + 1)⟩ } := by
  have hoob : decide (4096 ≤ s.pc.toNat + 1) = decide (4095 ≤ s.pc.toNat) := decide_eq_decide.2 (by omega)
  rw [State.afterFetch_eq, hoob]

/-- An unknown opcode advances pc and adds its flag to what the fetch reported. -/
theorem step_of_reject_eq {s : State} {r : Reject} (h : decode s.fetchWord = .reject r) :
    step s = .next { s with pc := s.pc + 2, diag := ⟨true, false, false, decide (4096 ≤ s.pc.toNat + 1)⟩ } := by
  rw [step_of_reject h, State.afterFetch_eq_lowByte]
  rfl

/-- The Step operation answers the state of the Step and returns its diag. -/
theorem perform_step_of_next (font : Font) {s t : State} (h : step s = .next t) :
    perform font .step s = .next ⟨t, .diag t.diag⟩ := by
  rw [perform, h]

/-- Settles O6: the two bytes written out are `fetchWord`, and the state written out is `afterFetch`. -/
theorem stepRunsTheDecodedInstruction : Obligations.StepRunsTheDecodedInstruction := by
  refine fun s => ⟨fun i hdec => ?_, fun r hdec => step_of_reject_eq hdec, fun font t h => perform_step_of_next font h⟩
  rw [← State.afterFetch_eq_lowByte]
  exact step_of_instr hdec

/-- Settles O7: the state `step_of_reject_eq` answers differs from the old one in pc and diag only. -/
theorem unknownOpcodeIsSilentNoOp : Obligations.UnknownOpcodeIsSilentNoOp := by
  rintro s ⟨r, hdec⟩
  exact ⟨_, step_of_reject_eq hdec, rfl, rfl, rfl, rfl,
    (onlyChanges_setPc s (s.pc + 2)).trans (onlyChanges_setDiag (s.setPc (s.pc + 2)) _)⟩

/-! What a Step does not depend on. -/

/-- Settles O10: the field is no part of the fetched word, and the fetch clears it before anything else runs. -/
theorem stepIgnoresDiag : Obligations.StepIgnoresDiag := by
  intro s d
  have hword : ({ s with diag := d } : State).fetchWord = s.fetchWord := rfl
  have hfetch : ({ s with diag := d } : State).afterFetch = s.afterFetch := rfl
  rw [step, step, hword, hfetch]

/-- Fetching does not see the keys. -/
theorem State.afterFetch_withKey (s : State) (k : Vector Bool 16) :
    ({ s with key := k } : State).afterFetch = { s.afterFetch with key := k } := by
  rw [State.afterFetch_eq, State.afterFetch_eq]

/-- An instruction that reads no key runs the same whatever the keys hold, and leaves them there. LD ST,Vx sees no key, and
any other keeps ST, so that `exec_outside` applies with ST as it is. -/
theorem exec_withKey_of_not_readsKeys {i : Instr} {s t : State} (k : Vector Bool 16) (h : exec i s = .next t)
    (hk : ¬ ReadsKeys i) : exec i { s with key := k } = .next { t with key := k } := by
  by_cases hst : ∃ x, i = .ldSTVx x
  · obtain ⟨x, rfl⟩ := hst
    cases h
    rfl
  · obtain ⟨t', ht', hout⟩ := exec_outside k s.st i s (fun x e => hk (by rw [e]; trivial))
      (fun x e => hk (by rw [e]; trivial)) (fun x e => hk (by rw [e]; trivial)) (not_exists.1 hst)
    cases ht'.symm.trans h
    have hkept : t.st = s.st := exec_onlyChanges h .st (mt st_mem_partsWritten hst)
    rw [hout, hkept]

/-- A Step that runs no key instruction runs the same whatever the keys hold, and leaves them there. -/
theorem step_withKey {s t : State} (k : Vector Bool 16) (h : step s = .next t)
    (hk : ¬ ∃ i, decode s.fetchWord = .instr i ∧ ReadsKeys i) :
    step { s with key := k } = .next { t with key := k } := by
  cases hd : decode s.fetchWord with
  | instr i =>
    rw [step_of_instr (s := { s with key := k }) hd, State.afterFetch_withKey]
    exact exec_withKey_of_not_readsKeys k ((step_of_instr hd).symm.trans h) fun hr => hk ⟨i, hd, hr⟩
  | reject r =>
    cases (step_of_reject hd).symm.trans h
    rw [step_of_reject (s := { s with key := k }) hd, State.afterFetch_withKey]
    rfl

/-- Settles O20: LD DT,Vx and LD ST,Vx copy V[x], the access map (O17) says that no other Step changes the timer, and
`step_withKey` is the clause about the keys. -/
theorem stepTicksNoTimerAndSamplesNoKey : Obligations.StepTicksNoTimerAndSamplesNoKey := by
  intro s
  obtain ⟨t, ht, -⟩ := step_next s
  obtain ⟨-, -, -, hdt, hst, -⟩ := accessMapOfStep s t ht
  refine ⟨t, ht, ?_, ?_, fun hk k => step_withKey k ht hk⟩
  · split
    · next x hd =>
      cases (step_of_instr hd).symm.trans ht
      exact s.afterFetch_getV x
    · next hne => exact not_imp_comm.1 hdt fun ⟨x, hx⟩ => hne x hx
  · split
    · next x hd =>
      cases (step_of_instr hd).symm.trans ht
      exact s.afterFetch_getV x
    · next hne => exact not_imp_comm.1 hst fun ⟨x, hx⟩ => hne x hx

end Sys2Proof.Machine
end

section
/-! PROOFS. Register load, arithmetic, logic and random (spec/41_arith_logic.md). What `SetsV` and `SetsVAndFlag` say is proved
once, of any instruction that ends in a write of V[x] or in a result and a flag; each instruction then owes its numbers. -/

namespace Sys2Proof.Machine

/-! The two forms of an instruction's end. -/

/-- An instruction that answers the state with V[x] written sets V[x] and nothing else. -/
theorem setsV_of_exec_eq {i : Instr} {x : Reg} {value : State → Byte}
    (hexec : ∀ s, exec i s = .next (s.setV x (value s))) : SetsV i x value :=
  fun s => ⟨_, hexec s, by simp, fun j hj => by simp [hj], onlyChanges_setV s x (value s)⟩

/-- An instruction that answers the state with a result and then a flag written leaves the flag in VF, and the result in V[x]
unless that is VF (R125). -/
theorem setsVAndFlag_of_exec_eq {i : Instr} {x : Reg} {r : State → Byte} {f : State → Bool} {result flag : State → Int}
    (hexec : ∀ s, exec i s = .next (s.setResultAndFlag x (r s) (f s)))
    (hresult : ∀ s, ((r s).toNat : Int) = result s) (hflag : ∀ s, ((flagByte (f s)).toNat : Int) = flag s) :
    SetsVAndFlag i x result flag := by
  intro s
  refine ⟨_, hexec s, ?_, fun hx => ?_, fun j hjx hj => ?_, onlyChanges_setResultAndFlag s x (r s) (f s)⟩
  · rw [State.setResultAndFlag_getV, if_pos rfl, hflag]
  · rw [State.setResultAndFlag_getV, if_neg hx, if_pos rfl, hresult]
  · rw [State.setResultAndFlag_getV, if_neg hj, if_neg hjx]

/-! The two flags of a sum and a difference, as numbers. -/

theorem toNat_flagByte (f : Bool) : (flagByte f).toNat = if f then 1 else 0 := by
  cases f <;> rfl

/-- The carry flag (R147). -/
theorem toNat_flagByte_carry (a b : Byte) :
    ((flagByte (carry a b)).toNat : Int) = if 255 < a.toNat + b.toNat then 1 else 0 := by
  simp [toNat_flagByte, carry]

/-- The not-borrow flag (R148, R150). -/
theorem toNat_flagByte_noBorrow (a b : Byte) :
    ((flagByte (noBorrow a b)).toNat : Int) = if a.toNat < b.toNat then 0 else 1 := by
  by_cases h : a.toNat < b.toNat <;> simp [toNat_flagByte, noBorrow, h]

/-! Results and flags. -/

/-- Settles O24: the result is `sum8` and the flag `carry` of the two registers. -/
theorem addSetsCarry : Obligations.AddSetsCarry := fun x y =>
  setsVAndFlag_of_exec_eq (fun _ => rfl) (fun s => congrArg Nat.cast (toNat_sum8 (s.getV x) (s.getV y)))
    fun _ => toNat_flagByte_carry _ _

/-- Settles O25: the result is `diff8` and the flag `noBorrow` of the two registers, in this order and in the other. -/
theorem subtractSetsNotBorrow : Obligations.SubtractSetsNotBorrow := fun _ _ =>
  ⟨setsVAndFlag_of_exec_eq (fun _ => rfl) (fun _ => toNat_diff8 _ _) fun _ => toNat_flagByte_noBorrow _ _,
    setsVAndFlag_of_exec_eq (fun _ => rfl) (fun _ => toNat_diff8 _ _) fun _ => toNat_flagByte_noBorrow _ _⟩

/-- Settles O26: the bit a shift loses is the remainder by 2 on the right and the quotient by 128 on the left. -/
theorem shiftsSetLostBit : Obligations.ShiftsSetLostBit := fun x =>
  ⟨setsVAndFlag_of_exec_eq (fun _ => rfl) (fun s => congrArg Nat.cast (toNat_shiftRight1 (s.getV x)))
      fun s => congrArg Nat.cast (toNat_flagByte_lowBit (s.getV x)),
    setsVAndFlag_of_exec_eq (fun _ => rfl) (fun s => congrArg Nat.cast (toNat_shiftLeft1 (s.getV x)))
      fun s => congrArg Nat.cast (toNat_flagByte_highBit (s.getV x))⟩

/-! Results without a flag. -/

/-- Settles O21: both instructions end in a write of V[x]. -/
theorem loadImmediateAndCopy : Obligations.LoadImmediateAndCopy := fun _ _ _ =>
  ⟨setsV_of_exec_eq fun _ => rfl, setsV_of_exec_eq fun _ => rfl⟩

/-- Settles O22: the byte `sum8` is the sum modulo 256. -/
theorem addImmediateWrapsWithoutFlag : Obligations.AddImmediateWrapsWithoutFlag := by
  refine fun x kk => setsV_of_exec_eq fun s => ?_
  have hsum : sum8 (s.getV x) kk = BitVec.ofNat 8 (((s.getV x).toNat + kk.toNat) % 256) := by
    apply BitVec.eq_of_toNat_eq
    simp [toNat_sum8]
  rw [← hsum]
  rfl

/-- Settles O23: each of the three ends in a write of V[x] alone. -/
theorem bitwiseLogicLeavesFlag : Obligations.BitwiseLogicLeavesFlag := fun _ _ =>
  ⟨setsV_of_exec_eq fun _ => rfl, setsV_of_exec_eq fun _ => rfl, setsV_of_exec_eq fun _ => rfl⟩

/-! Random. -/

/-- A masked byte has no bit outside the mask. -/
theorem and_mask_and_not_mask (b kk : Byte) : b &&& kk &&& ~~~kk = 0x00#8 := by
  rw [BitVec.and_assoc, BitVec.and_not_self]
  exact BitVec.and_zero

/-- Settles O27: RND answers the state with the counter advanced and V[x] written. -/
theorem randomByteIsMasked : Obligations.RandomByteIsMasked := by
  intro x kk s
  have hexec : exec (.rndVxKk x kk) s = .next (s.nextDraw.setV x (Config.rnd s.draws &&& kk)) := rfl
  have hx : (s.nextDraw.setV x (Config.rnd s.draws &&& kk)).getV x = Config.rnd s.draws &&& kk := by simp
  refine ⟨_, hexec, hx, ?_, fun hkk => ?_, rfl, fun j hj => ?_, exec_onlyChanges hexec⟩
  · rw [hx, and_mask_and_not_mask]
  · rw [hx, hkk]
    exact BitVec.and_zero
  · simp [hj]

end Sys2Proof.Machine
end

section
/-! PROOFS. Control flow (spec/42_control_flow.md). Each operation the instructions end in, the push, the pop and the skip, is
stated once by its condition; the numbers of the two jump targets follow, and then the instructions. -/

namespace Sys2Proof.Machine

/-! The call stack, by its depth. -/

theorem State.push_of_depth_lt {s : State} (a : Word) (h : s.depth < 16) : s.push a = s.setStack (a :: s.stack) := if_pos h

/-- A push onto a full stack is dropped (R161, D9). -/
theorem State.push_of_le_depth {s : State} (a : Word) (h : 16 ≤ s.depth) :
    s.push a = s.setDiag { s.diag with stackOverflow := true } := if_neg (Nat.not_lt.2 h)

theorem State.popToPc_of_cons {s : State} {a : Word} {rest : List Word} (h : s.stack = a :: rest) :
    s.popToPc = (s.setStack rest).setPc a := by
  rw [State.popToPc, h]

theorem State.popToPc_of_nil {s : State} (h : s.stack = []) :
    s.popToPc = s.setDiag { s.diag with stackUnderflow := true } := by
  rw [State.popToPc, h]
  rfl

/-! Jump targets as numbers. -/

theorem toNat_zext12 (nnn : Imm12) : (zext12 nnn).toNat = nnn.toNat := BitVec.toNat_setWidth_of_le (by decide)

theorem toNat_indexedTarget (b : Byte) (nnn : Imm12) : (indexedTarget b nnn).toNat = (b.toNat + nnn.toNat) % 4096 := by
  rw [indexedTarget, BitVec.toNat_ofNat]
  omega

/-! Jumps. -/

/-- Settles O28: the high nibble 1 alone selects JP, which ends in a write of pc over whatever the fetch left there. -/
theorem jumpSetsProgramCounter : Obligations.JumpSetsProgramCounter := by
  refine ⟨fun w hw => ?_, fun nnn s => ?_, fun nnn s hdec => ?_⟩
  · rw [wordNnn_eq_nnnField]
    exact decode_op1 ((and_F000_iff w 0x1#4).1 hw)
  · exact ⟨s.setPc (zext12 nnn), rfl, toNat_zext12 nnn, onlyChanges_setPc s _⟩
  · refine ⟨s.afterFetch.setPc (zext12 nnn), step_of_instr hdec, toNat_zext12 nnn, ?_⟩
    exact ((onlyChanges_afterFetch s).trans (onlyChanges_setPc _ _)).mono (by simp)

/-- Settles O34: the target is written to pc whole. -/
theorem indexedJumpUsesV0 : Obligations.IndexedJumpUsesV0 := fun nnn s =>
  ⟨s.setPc (indexedTarget (s.getV 0) nnn), rfl, toNat_indexedTarget _ _, onlyChanges_setPc s _⟩

/-! Call and return. -/

/-- Settles O30: the jump is the same at every depth, and the depth decides what the push before it did. -/
theorem callPushesAndJumps : Obligations.CallPushesAndJumps := by
  intro nnn s
  refine ⟨(s.push s.pc).setPc (zext12 nnn), rfl, toNat_zext12 nnn, fun hroom => ?_, fun hfull => ?_,
    exec_onlyChanges (i := .callNnn nnn) rfl⟩
  · rw [State.push_of_depth_lt _ hroom]
    exact ⟨rfl, rfl⟩
  · rw [State.push_of_le_depth _ hfull]
    exact ⟨rfl, rfl⟩

/-- Settles O31: the stack has a top entry or is empty. -/
theorem returnPopsIntoProgramCounter : Obligations.ReturnPopsIntoProgramCounter := by
  refine fun s => ⟨s.popToPc, rfl, fun a rest hstack => ?_, fun hempty => ?_, onlyChanges_popToPc s⟩
  · rw [State.popToPc_of_cons hstack]
    exact ⟨rfl, rfl, rfl⟩
  · rw [State.popToPc_of_nil hempty]
    exact ⟨rfl, hempty, rfl⟩

/-- Settles O32: the CALL leaves its advanced pc on top of the old stack (O30), and the RET pops that entry (O31). -/
theorem returnUndoesCall : Obligations.ReturnUndoesCall := by
  intro nnn s hroom
  obtain ⟨t, hcall, -, hpush, -⟩ := callPushesAndJumps nnn s
  refine ⟨t, hcall, fun u hu => ?_⟩
  obtain ⟨w, hret, hpop, -⟩ := returnPopsIntoProgramCounter u
  obtain ⟨hpc, hstack, -⟩ := hpop s.pc s.stack (hu.trans (hpush hroom).1)
  exact ⟨w, hret, hpc, hstack⟩

/-! Skips. -/

/-- An instruction that ends in a conditional skip skips exactly when what its condition tests holds. -/
theorem skipsWhen_of_exec_eq {i : Instr} {test : State → Bool} {c : State → Prop}
    (hexec : ∀ s, exec i s = .next (s.skipIf (test s))) (htest : ∀ s, test s = true ↔ c s) : SkipsWhen i c := by
  refine fun s => ⟨_, hexec s, fun hc => ?_, fun hc => ?_, onlyChanges_skipIf s _⟩
  · rw [State.skipIf_eq, if_pos ((htest s).2 hc)]
    rfl
  · rw [State.skipIf_eq, if_neg (mt (htest s).1 hc)]
    rfl

theorem byte_beq_iff_toNat_eq (a b : Byte) : (a == b) = true ↔ a.toNat = b.toNat := beq_iff_eq.trans BitVec.toNat_inj.symm

theorem byte_bne_iff_toNat_ne (a b : Byte) : (a != b) = true ↔ a.toNat ≠ b.toNat :=
  bne_iff_ne.trans (not_congr BitVec.toNat_inj.symm)

/-- Settles O33: the four end in a skip, two on equality and two on inequality of whole bytes. -/
theorem registerSkips : Obligations.RegisterSkips := fun _ _ _ =>
  ⟨skipsWhen_of_exec_eq (fun _ => rfl) fun _ => byte_beq_iff_toNat_eq _ _,
    skipsWhen_of_exec_eq (fun _ => rfl) fun _ => byte_bne_iff_toNat_ne _ _,
    skipsWhen_of_exec_eq (fun _ => rfl) fun _ => byte_beq_iff_toNat_eq _ _,
    skipsWhen_of_exec_eq (fun _ => rfl) fun _ => byte_bne_iff_toNat_ne _ _⟩

/-! How far a skip reaches. -/

/-- No instruction is fetched outside memory: 0x0000 is an unknown opcode (R63). -/
theorem pc_lt_of_decode_fetchWord {s : State} {i : Instr} (h : decode s.fetchWord = .instr i) : s.pc.toNat < 4096 := by
  by_contra hpc
  have hreject : decode 0x0000#16 = .reject .unknown0 := by decide
  rw [State.fetchWord_oob (Nat.not_lt.1 hpc), hreject] at h
  cases h

/-- A Step that runs a skip leaves pc at the next instruction or at the one after it (R167). -/
theorem pcAfter_of_isSkip (s : State) {i : Instr} (h : IsSkip i) :
    pcAfter s (some i) = s.pc + 4 ∨ pcAfter s (some i) = s.pc + 2 := by
  cases i
  case seVxKk | sneVxKk | seVxVy | sneVxVy | skpVx => exact ite_eq_or_eq _ _ _
  case sknpVx => exact (ite_eq_or_eq _ _ _).symm
  all_goals exact h.elim

/-- Settles O35: a skip fetched below 4096 adds at most 4 to pc (O18), with no wrap. -/
theorem skipReachesAtMost1003 : Obligations.SkipReachesAtMost1003 := by
  intro s i hdec
  have hpc : s.pc.toNat < 4096 := pc_lt_of_decode_fetchWord hdec
  refine ⟨Nat.le_of_lt_succ hpc, fun hskip => ?_⟩
  obtain ⟨t, ht, hafter⟩ := programCounterAfterStep s
  refine ⟨t, ht, ?_⟩
  rw [hdec] at hafter
  obtain h | h := pcAfter_of_isSkip s hskip
  · have : t.pc = s.pc + 4 := hafter.trans h
    bv_omega
  · have : t.pc = s.pc + 2 := hafter.trans h
    bv_omega

end Sys2Proof.Machine
end

section
/-! PROOFS. Address register and memory (spec/43_memory_address.md). What writing a list of bytes does to the bytes of its
block, to the bytes outside it and to diag is stated once; LD B and the register dump each owe the list they write. -/

namespace Sys2Proof.Machine

/-! Writing a list of bytes (R65, D6). -/

section
variable (s : State) {a : Nat} {bs : List Byte}

/-- The byte at offset k of the block, where it is in bounds. -/
theorem State.writeBytes_readByte_in_block {k : Nat} (hk : k < bs.length) (hb : a + k < 4096) :
    (s.writeBytes a bs).readByte (a + k) = bs[k] := by
  rw [State.writeBytes_readByte, dif_pos (by omega)]
  simp only [Nat.add_sub_cancel_left]

theorem State.writeBytes_readByte_outside {n a' : Nat} (hlen : bs.length = n) (h : ¬ (a ≤ a' ∧ a' < a + n)) :
    (s.writeBytes a bs).readByte a' = s.readByte a' := by
  rw [State.writeBytes_readByte, dif_neg (by omega)]

/-- Some byte of a nonempty list falls out of bounds exactly when the last one does. -/
theorem State.writeBytes_diag {n : Nat} (hlen : bs.length = n + 1) :
    (s.writeBytes a bs).diag = { s.diag with memOob := s.diag.memOob || decide (4096 ≤ a + n) } := by
  obtain ⟨m, hm⟩ := State.writeBytes_eq bs s a
  have hoob : decide (bs.length ≠ 0 ∧ 4096 < a + bs.length) = decide (4096 ≤ a + n) := decide_eq_decide.2 (by omega)
  rw [hm, State.setDiag_diag, hoob]

end

/-! Addresses and digits as numbers. -/

theorem toNat_glyphAddress (b : Byte) : (glyphAddress b).toNat = b.toNat * 5 := by
  rw [glyphAddress, Config.glyphBytes, BitVec.toNat_ofNat]
  omega

theorem toNat_advancePast (a : Word) (x : Reg) : (advancePast a x).toNat = (a.toNat + x.val + 1) % 65536 :=
  BitVec.toNat_ofNat ..

/-- The digits in the order they are stored (R183): hundreds, tens, units. -/
theorem toNat_bcdDigits (b : Byte) :
    (bcdDigits b).map BitVec.toNat = [b.toNat / 100, b.toNat / 10 % 10, b.toNat % 10] := by
  have hhundreds : b.toNat / 100 % 2 ^ 8 = b.toNat / 100 := by omega
  have htens : b.toNat / 10 % 10 % 2 ^ 8 = b.toNat / 10 % 10 := by omega
  have hunits : b.toNat % 10 % 2 ^ 8 = b.toNat % 10 := by omega
  simp only [bcdDigits, List.map_cons, List.map_nil, BitVec.toNat_ofNat, hhundreds, htens, hunits]

/-- After LD B the in-bounds byte at I + k is the digit of that place. -/
theorem State.writeBytes_bcdDigits_readByte (s : State) (b : Byte) {k : Nat} (hk : k < 3) {a : Nat} (hb : a + k < 4096) :
    ((s.writeBytes a (bcdDigits b)).readByte (a + k)).toNat =
      [b.toNat / 100, b.toNat / 10 % 10, b.toNat % 10][k] := by
  have hlen : k < (bcdDigits b).length := hk
  rw [s.writeBytes_readByte_in_block hlen hb]
  simp only [← toNat_bcdDigits, List.getElem_map]

/-! Stores. -/

/-- Settles O38: LD B writes the list of the three digits at I and does nothing else. -/
theorem bcdStoresThreeDigits : Obligations.BcdStoresThreeDigits := by
  intro x s
  have hlen : (bcdDigits (s.getV x)).length = 2 + 1 := rfl
  refine ⟨s.writeBytes s.dataBase (bcdDigits (s.getV x)), rfl, rfl, fun h => ?_, fun h => ?_, fun h => ?_, fun a ha => ?_,
    s.writeBytes_diag hlen, onlyChanges_writeBytes s _ _⟩
  · exact s.writeBytes_bcdDigits_readByte (s.getV x) (k := 0) (by decide) h
  · exact s.writeBytes_bcdDigits_readByte (s.getV x) (k := 1) (by decide) h
  · exact s.writeBytes_bcdDigits_readByte (s.getV x) (k := 2) (by decide) h
  · exact s.writeBytes_readByte_outside hlen ha

/-- Settles O39: a dump writes the list of the registers V[0..x] at I, then advances I, which no byte sees. -/
theorem registerDump : Obligations.RegisterDump := by
  intro x s
  have hexec : exec (.ldMemIVx x) s =
      .next ((s.writeBytes s.dataBase (s.regBytes x)).setI (advancePast s.i x)) := rfl
  have hlen := s.regBytes_length x
  refine ⟨_, hexec, rfl, fun k hk hb => ?_, fun a ha => ?_, toNat_advancePast s.i x, ?_, exec_onlyChanges hexec⟩
  · exact s.dump_readByte hk hb
  · exact s.writeBytes_readByte_outside hlen ha
  · exact s.writeBytes_diag hlen

/-! Loads. -/

/-- Settles O40: a load writes each register of the list V[0..x] with what is read at its own address, out of bounds
0x00. -/
theorem registerLoad : Obligations.RegisterLoad := by
  intro x s
  have hexec : exec (.ldVxMemI x) s =
      .next ((s.loadRegs s.dataBase (regsUpTo x)).setI (advancePast s.i x)) := rfl
  have hload (k : Reg) (hk : k.val ≤ x.val) :
      (s.loadRegs s.dataBase (regsUpTo x)).getV k = s.readByte (s.i.toNat + k.val) :=
    (State.loadRegs_getV ..).trans (if_pos ((mem_regsUpTo x k).2 hk))
  refine ⟨_, hexec, fun k hk _ => hload k hk, fun k hk hoob => ?_, fun k hk => ?_, toNat_advancePast s.i x, ?_,
    exec_onlyChanges hexec⟩
  · exact (hload k hk).trans (s.readByte_oob hoob)
  · exact (State.loadRegs_getV ..).trans (if_neg (mt (mem_regsUpTo x k).1 (Nat.not_le.2 hk)))
  · rw [State.setI_diag, State.loadRegs_memOob, regsUpTo_any_oob]
    rfl

/-- Settles O41: the load reads each register's byte where the dump stored it (O39, O40). -/
theorem dumpThenLoadRestores : Obligations.DumpThenLoadRestores := by
  intro x s hb
  obtain ⟨t, ht, hbase, hdump, -⟩ := registerDump x s
  refine ⟨t, ht, fun u hmem hi => ?_⟩
  obtain ⟨w, hw, hload, -⟩ := registerLoad x u
  refine ⟨w, hw, fun k hk => ?_⟩
  have hk_in : s.i.toNat + k.val < 4096 := by omega
  calc w.getV k = u.readByte (s.i.toNat + k.val) := hi ▸ hload k hk (hi ▸ hk_in)
    _ = t.readByte (s.i.toNat + k.val) := hmem _
    _ = s.getV k := hdump k hk hk_in

/-! Writes of I alone. -/

/-- Settles O36: both write I; a glyph address is at most 255 times 5, so nothing is cut off. -/
theorem loadAddressAndGlyph : Obligations.LoadAddressAndGlyph := fun nnn x s =>
  ⟨⟨s.setI (zext12 nnn), rfl, toNat_zext12 nnn, onlyChanges_setI s _⟩,
    ⟨s.setI (glyphAddress (s.getV x)), rfl, toNat_glyphAddress _, onlyChanges_setI s _⟩⟩

/-- Settles O37: the sum of words is the sum modulo 65536, and I is all that is written. -/
theorem addToAddressHasNoFlag : Obligations.AddToAddressHasNoFlag := by
  refine fun x s => ⟨s.setI (s.i + zext8 (s.getV x)), rfl, ?_, onlyChanges_setI s _⟩
  have hbyte : (zext8 (s.getV x)).toNat = (s.getV x).toNat := BitVec.toNat_setWidth_of_le (by decide)
  rw [State.setI_i, BitVec.toNat_add, hbyte]

end Sys2Proof.Machine
end

section
/-! PROOFS. The framebuffer (spec/44_draw.md). What one DRW does to a pixel and to VF is stated once, from the closed form of
the draw engine; drawing twice is the same statement used at the state between the draws. -/

namespace Sys2Proof.Machine

/-! The draw engine on the sprite at I. -/

section
variable (s : State) (n x0 y0 : Nat)

@[simp] theorem State.setFb_pixel (f : Framebuffer) (r c : Nat) : (s.setFb f).pixel r c = f.get r c := rfl

theorem State.pixel_off_grid {r c : Nat} (h : ¬ (r < 32 ∧ c < 64)) : s.pixel r c = false :=
  Framebuffer.get_off_grid s.fb h

/-- The bit the draw engine takes from the sprite's rows is the sprite bit of R201, which is 0 off the n rows. -/
theorem State.rowsBit_spriteRows (r c : Nat) : rowsBit (s.spriteRows n) x0 y0 r c = spriteBit s n x0 y0 r c := by
  unfold rowsBit
  rw [State.spriteRows_getD]
  by_cases hrow : y0 ≤ r ∧ r - y0 < n
  · have hr : r < y0 + n := by omega
    simp [rowBit, spriteBit, hrow, hr]
  · have hoff : ¬ (y0 ≤ r ∧ r < y0 + n ∧ x0 ≤ c ∧ c < x0 + 8) := by omega
    rw [spriteBit, decide_eq_false hoff, Bool.false_and, Bool.and_eq_false_iff, decide_eq_false_iff_not]
    by_cases hy : y0 ≤ r
    · exact .inr (by rw [if_neg fun h => hrow ⟨hy, h⟩, rowBit_zero])
    · exact .inl hy

/-- What the draw engine answers for `n` sprite rows from I at column `x0`, row `y0`: the pixels and the collision. -/
def State.drawn : Blit := plotRows x0 (s.spriteRows n) y0 (s.fb, false)

theorem State.drawn_get {r c : Nat} (hr : r < 32) (hc : c < 64) :
    (s.drawn n x0 y0).1.get r c = (s.pixel r c ^^ spriteBit s n x0 y0 r c) := by
  rw [← State.rowsBit_spriteRows]
  exact plotRows_get x0 _ y0 _ hr hc

/-- The engine reports a collision exactly when a sprite bit falls on a pixel that is on; such a pixel is in the grid. -/
theorem State.drawn_hit_iff : (s.drawn n x0 y0).2 = true ↔ Collides s n x0 y0 := by
  have hhit : (s.drawn n x0 y0).2 = true ↔ ∃ r c, spriteBit s n x0 y0 r c = true ∧ s.pixel r c = true := by
    simpa [State.drawn, State.pixel, State.rowsBit_spriteRows] using plotRows_hit x0 (s.spriteRows n) y0 (s.fb, false)
  rw [hhit]
  constructor
  · rintro ⟨r, c, hbit, hon⟩
    have hgrid : r < 32 ∧ c < 64 := by
      by_contra h
      simp [s.pixel_off_grid h] at hon
    exact ⟨r, c, hgrid.1, hgrid.2, hbit, hon⟩
  · rintro ⟨r, c, -, -, hbit, hon⟩
    exact ⟨r, c, hbit, hon⟩

end

theorem flagByte_eq_one_iff (f : Bool) : flagByte f = 0x01#8 ↔ f = true := by
  cases f <;> decide

theorem flagByte_eq_zero_iff (f : Bool) : flagByte f = 0x00#8 ↔ f = false := by
  cases f <;> decide

/-! What one DRW does. -/

section
variable {s : State} {x y : Reg} {n : Imm4} {t : State} (h : exec (.drwVxVyN x y n) s = .next t)
include h

/-- DRW notes its reads, replaces the pixels, and writes VF last. -/
theorem drw_next_eq : t = ((s.noteAccesses s.dataBase n.toNat).setFb
    (s.drawn n.toNat (s.getV x).toNat (s.getV y).toNat).1).setV vf
      (flagByte (s.drawn n.toNat (s.getV x).toNat (s.getV y).toNat).2) := by
  cases h
  rfl

theorem drw_pixel {r c : Nat} (hr : r < 32) (hc : c < 64) :
    t.pixel r c = (s.pixel r c ^^ spriteBit s n.toNat (s.getV x).toNat (s.getV y).toNat r c) := by
  rw [drw_next_eq h, State.setV_pixel, State.setFb_pixel, State.drawn_get _ _ _ _ hr hc]

theorem drw_vf : t.getV 15 = flagByte (s.drawn n.toNat (s.getV x).toNat (s.getV y).toNat).2 := by
  rw [drw_next_eq h, State.setV_getV, vf_eq, if_pos rfl]

theorem drw_vf_eq_one_iff : t.getV 15 = 0x01#8 ↔ Collides s n.toNat (s.getV x).toNat (s.getV y).toNat := by
  rw [drw_vf h, flagByte_eq_one_iff, State.drawn_hit_iff]

theorem drw_vf_eq_zero_iff : t.getV 15 = 0x00#8 ↔ ¬ Collides s n.toNat (s.getV x).toNat (s.getV y).toNat := by
  rw [drw_vf h, flagByte_eq_zero_iff, ← State.drawn_hit_iff, Bool.not_eq_true]

theorem drw_getV {j : Reg} (hj : j ≠ 15) : t.getV j = s.getV j := by
  rw [drw_next_eq h, State.setV_getV, vf_eq, if_neg hj, State.setFb_getV, State.noteAccesses_eq, State.setDiag_getV]

theorem drw_diag :
    t.diag = { s.diag with memOob := s.diag.memOob || decide (n.toNat ≠ 0 ∧ 4096 < s.i.toNat + n.toNat) } := by
  rw [drw_next_eq h, State.setV_diag, State.setFb_diag, State.noteAccesses_eq, State.setDiag_diag]
  rfl

end

/-- Settles O44: the lemmas on one DRW, and its frame. -/
theorem drawXorsSpriteAndDetectsCollision : Obligations.DrawXorsSpriteAndDetectsCollision := by
  intro x y n s
  obtain ⟨t, ht, -⟩ := exec_next (.drwVxVyN x y n) s
  exact ⟨t, ht, fun _ _ => drw_pixel ht, (drw_vf_eq_one_iff ht).2, (drw_vf_eq_zero_iff ht).2, fun _ => drw_getV ht,
    drw_diag ht, exec_onlyChanges ht⟩

/-! Drawing twice. -/

section
variable {s u : State} {n x0 y0 : Nat}

/-- The sprite bit depends on memory and I alone. -/
theorem spriteBit_congr (hmem : Same s u .mem) (hi : u.i = s.i) (r c : Nat) :
    spriteBit u n x0 y0 r c = spriteBit s n x0 y0 r c := by
  rw [spriteBit, spriteBit, hi, hmem]

/-- Where the pixels of `u` are those of `s` after the sprite was drawn, drawing it again collides at the sprite bits that
fell on a pixel that was off. -/
theorem collides_redraw_iff (hbit : ∀ r c, spriteBit u n x0 y0 r c = spriteBit s n x0 y0 r c)
    (hpixel : ∀ r c, r < 32 → c < 64 → u.pixel r c = (s.pixel r c ^^ spriteBit s n x0 y0 r c)) :
    Collides u n x0 y0 ↔
      ∃ r c, r < 32 ∧ c < 64 ∧ spriteBit s n x0 y0 r c = true ∧ s.pixel r c = false := by
  refine exists_congr fun r => exists_congr fun c => and_congr_right fun hr => and_congr_right fun hc => ?_
  rw [hbit, hpixel r c hr hc]
  exact and_congr_right fun hset => by simp [hset]

/-- Where the sprite meets no pixel that is on, every sprite bit inside the grid is on a pixel that is off. -/
theorem exists_spriteBit_on_off_pixel_iff (hclear : ¬ Collides s n x0 y0) :
    (∃ r c, r < 32 ∧ c < 64 ∧ spriteBit s n x0 y0 r c = true ∧ s.pixel r c = false) ↔ DrawsSomething s n x0 y0 := by
  refine exists_congr fun r => exists_congr fun c => and_congr_right fun hr => and_congr_right fun hc =>
    and_iff_left_of_imp fun hset => ?_
  by_contra hon
  exact hclear ⟨r, c, hr, hc, hset, eq_true_of_ne_false hon⟩

end

/-- Settles O45: the second draw reads the same sprite bits (memory, I and the coordinates are those of the first), so each
pixel is XORed with the same bit twice. -/
theorem drawingTwiceRestores : Obligations.DrawingTwiceRestores := by
  intro x y n s
  obtain ⟨t, ht, -⟩ := exec_next (.drwVxVyN x y n) s
  refine ⟨t, ht, fun u hfb hmem hi hx hy => ?_⟩
  obtain ⟨w, hw, -⟩ := exec_next (.drwVxVyN x y n) u
  have hmem_su : Same s u .mem := (exec_onlyChanges ht .mem (by simp [partsWritten])).trans hmem
  have hbit (r c : Nat) : spriteBit u n.toNat (s.getV x).toNat (s.getV y).toNat r c =
      spriteBit s n.toNat (s.getV x).toNat (s.getV y).toNat r c := spriteBit_congr hmem_su hi r c
  have hpixel (r c : Nat) (hr : r < 32) (hc : c < 64) : u.pixel r c =
      (s.pixel r c ^^ spriteBit s n.toNat (s.getV x).toNat (s.getV y).toNat r c) :=
    (hfb r c).trans (drw_pixel ht hr hc)
  have hvf := drw_vf_eq_one_iff hw
  rw [hx, hy, collides_redraw_iff hbit hpixel] at hvf
  refine ⟨w, hw, fun r c => ?_, hvf, fun hclear => hvf.trans (exists_spriteBit_on_off_pixel_iff hclear)⟩
  by_cases hgrid : r < 32 ∧ c < 64
  · obtain ⟨hr, hc⟩ := hgrid
    rw [drw_pixel hw hr hc, hx, hy, hbit, hpixel r c hr hc, Bool.xor_assoc, Bool.xor_self, Bool.xor_false]
  · rw [w.pixel_off_grid hgrid, s.pixel_off_grid hgrid]

/-! Clearing and reading the framebuffer. -/

/-- Settles O43: CLS replaces the framebuffer by the clear one. -/
theorem clearScreen : Obligations.ClearScreen :=
  fun s => ⟨s.setFb Framebuffer.clear, rfl, Framebuffer.get_clear, onlyChanges_setFb s _⟩

section
variable (s : State)

theorem State.readFramebuffer_length : s.readFramebuffer.length = 32 := by
  simp [State.readFramebuffer]

theorem State.readFramebuffer_getElem? {r : Nat} (hr : r < 32) : s.readFramebuffer[r]? = some s.fb[r].toList := by
  simp [State.readFramebuffer, hr]

theorem State.pixel_in_grid {r c : Nat} (hr : r < 32) (hc : c < 64) : s.pixel r c = s.fb[r][c] :=
  dif_pos ⟨hr, hc⟩

end

/-- Settles O56: row r of the answer is row r of the framebuffer. -/
theorem readFramebufferShowsEveryPixel : Obligations.ReadFramebufferShowsEveryPixel := by
  refine fun font s => ⟨s.readFramebuffer, rfl, s.readFramebuffer_length, fun r hr => ?_⟩
  refine ⟨s.fb[r].toList, s.readFramebuffer_getElem? hr, Vector.length_toList, fun c hc => ?_⟩
  simp [s.pixel_in_grid hr hc, hc]

end Sys2Proof.Machine
end

section
/-! PROOFS. Timers and keys (spec/45_timer_input.md). A key instruction is settled by what it tests: one key, or the lowest key
that is down. A host operation on a key is settled by the one flag its code names; a schedule follows operation by
operation. -/

namespace Sys2Proof.Machine

/-! Timer registers. -/

/-- Settles O46: each of the three ends in one write, of V[x], of DT or of ST. -/
theorem timerReadsAndWrites : Obligations.TimerReadsAndWrites := fun x =>
  ⟨setsV_of_exec_eq fun _ => rfl, fun s => ⟨s.setDt (s.getV x), rfl, rfl, onlyChanges_setDt s _⟩,
    fun s => ⟨s.setSt (s.getV x), rfl, rfl, onlyChanges_setSt s _⟩⟩

/-! Ticks. -/

theorem State.toNat_tickTimers_dt (s : State) : s.tickTimers.dt.toNat = s.dt.toNat - 1 := toNat_tick s.dt

theorem State.toNat_tickTimers_st (s : State) : s.tickTimers.st.toNat = s.st.toNat - 1 := toNat_tick s.st

theorem onlyChanges_tickTimers (s : State) : OnlyChanges [.dt, .st] s s.tickTimers :=
  (onlyChanges_setDt s _).trans (onlyChanges_setSt _ _)

/-- Settles O50: one tick of each timer. -/
theorem tickTimersCountsDown : Obligations.TickTimersCountsDown := fun _ s =>
  ⟨s.tickTimers, rfl, s.toNat_tickTimers_dt, s.toNat_tickTimers_st, onlyChanges_tickTimers s⟩

/-- What `n` ticks leave of DT. -/
theorem schedule_ticks_dt (font : Font) (n : Nat) (s : State) :
    ∃ u, schedule font (List.replicate n .tickTimers) s = .next u ∧ u.dt.toNat = s.dt.toNat - n ∧
      OnlyChanges [.dt, .st] s u := by
  induction n generalizing s with
  | zero => exact ⟨s, rfl, rfl, OnlyChanges.refl _ s⟩
  | succ n ih =>
    obtain ⟨u, hu, hdt, hframe⟩ := ih s.tickTimers
    refine ⟨u, hu, ?_, ((onlyChanges_tickTimers s).trans hframe).mono (by simp)⟩
    rw [hdt, s.toNat_tickTimers_dt]
    omega

/-- Settles O52: LD DT,Vx leaves V[x] in DT, and the ticks count from there. -/
theorem delayTimerAfterTicks : Obligations.DelayTimerAfterTicks := by
  intro font x s n
  obtain ⟨u, hu, hdt, hframe⟩ := schedule_ticks_dt font n (s.setDt (s.getV x))
  exact ⟨s.setDt (s.getV x), u, rfl, hu, hdt, hframe⟩

/-! The keys an instruction tests. -/

/-- A number names a key that is down: it is below 16, and its flag is set (R230, D14). -/
theorem State.keyDownAt_iff (s : State) (n : Nat) : s.keyDownAt n = true ↔ ∃ h : n < 16, s.key[n] = true := by
  by_cases hn : n < 16 <;> simp [State.keyDownAt, hn]

/-- Settles O47: both end in a skip, on the key that V[x] names and on its negation. -/
theorem keySkipsAreComplementary : Obligations.KeySkipsAreComplementary := fun _ =>
  ⟨skipsWhen_of_exec_eq (fun _ => rfl) fun s => s.keyDownAt_iff _,
    skipsWhen_of_exec_eq (fun _ => rfl) fun s => Bool.not_iff_not.trans (not_congr (s.keyDownAt_iff _))⟩

/-! Waiting for a key. -/

theorem State.lowestKey_eq_none_of_all_up {s : State} (h : ∀ k, k < 16 → s.keyDownAt k = false) : s.lowestKey = none := by
  refine s.lowestKey_eq_none.2 fun n => ?_
  by_cases hn : n < 16
  · exact h n hn
  · exact dif_neg hn

theorem exec_ldVxK_of_none {s : State} (x : Reg) (h : s.lowestKey = none) :
    exec (.ldVxK x) s = .next (s.setPc (s.pc - 2)) := by
  rw [exec, execLdVxK, h]

theorem exec_ldVxK_of_some {s : State} {k : KeyIndex} (x : Reg) (h : s.lowestKey = some k) :
    exec (.ldVxK x) s = .next (s.setV x (BitVec.ofNat 8 k.val)) := by
  rw [exec, execLdVxK, h]

/-- Settles O48: the two answers of `lowestKey`; a key index fits a byte. -/
theorem waitForKeyReportsLowest : Obligations.WaitForKeyReportsLowest := by
  refine fun x s => ⟨fun hup => ?_, fun k hdown hlower => ?_⟩
  · exact ⟨_, exec_ldVxK_of_none x (State.lowestKey_eq_none_of_all_up hup), rfl, onlyChanges_setPc s _⟩
  · refine ⟨_, exec_ldVxK_of_some x ((s.lowestKey_eq_some k).2 ⟨hdown, hlower⟩), ?_, fun j hj => ?_, onlyChanges_setV s x _⟩
    · rw [State.setV_getV, if_pos rfl, BitVec.toNat_ofNat]
      omega
    · rw [State.setV_getV, if_neg hj]

/-- A part that reads the same need not be listed. -/
theorem OnlyChanges.of_same_head {p : Part} {ps : List Part} {s t : State} (h : OnlyChanges (p :: ps) s t)
    (hp : Same s t p) : OnlyChanges ps s t := by
  intro q hq
  by_cases hqp : q = p
  · exact hqp ▸ hp
  · exact h q (by simp [hqp, hq])

/-- Settles O49: the fetch advances pc by 2, the wait rewinds it by 2 (O48), and besides pc the two write diag alone. -/
theorem waitForKeyIsFixedPoint : Obligations.WaitForKeyIsFixedPoint := by
  intro s x hdec hup
  obtain ⟨t, ht, hpc, hframe⟩ := (waitForKeyReportsLowest x s.afterFetch).1 (by simpa using hup)
  have hrewound : t.pc = s.pc := by rw [hpc, State.afterFetch_pc, BitVec.add_sub_cancel]
  have hboth : OnlyChanges [.pc, .diag] s t := ((onlyChanges_afterFetch s).trans hframe).mono (by simp)
  exact ⟨t, (step_of_instr hdec).trans ht, hboth.of_same_head hrewound⟩

/-! Key events. -/

theorem onlyChanges_setKey (s : State) (k : KeyIndex) (p : Bool) : OnlyChanges [.key] s (s.setKey k p) := by
  intro q hq
  cases q <;> simp [Same] at hq ⊢

/-- Writing to a flag the value it has changes nothing. -/
theorem State.setKey_eq_self {s : State} {k : KeyIndex} {p : Bool} (h : s.keyDownAt k.val = p) : s.setKey k p = s := by
  have hkey : (s.setKey k p).key = s.key := State.key_eq_of_keyDownAt_eq fun n => by
    rw [State.setKey_keyDownAt]
    split
    · next hn => rw [hn, h]
    · rfl
  exact State.ext_fields rfl rfl rfl rfl rfl rfl hkey rfl rfl rfl rfl

section
variable (s : State) (code : Int) (p : Bool)

/-- A key event sets the flag of the key its code names to `p` and leaves the flags of the others. -/
theorem State.setKeyCode_keyDownAt {n : Nat} (hn : n < 16) :
    (s.setKeyCode code p).keyDownAt n = if code = (n : Int) then p else s.keyDownAt n := by
  obtain ⟨k, hk, e⟩ | ⟨hout, e⟩ := s.setKeyCode_cases code p <;> rw [e]
  · have hnames : n = k.val ↔ code = (n : Int) := by omega
    simp only [State.setKey_keyDownAt, hnames]
  · rw [if_neg (by omega)]

theorem onlyChanges_setKeyCode : OnlyChanges [.key] s (s.setKeyCode code p) := by
  obtain ⟨k, -, e⟩ | ⟨-, e⟩ := s.setKeyCode_cases code p <;> rw [e]
  · exact onlyChanges_setKey s k p
  · exact OnlyChanges.refl _ s

variable {code p}

theorem State.setKeyCode_of_out_of_range (h : code < 0 ∨ 15 < code) : s.setKeyCode code p = s := by
  obtain ⟨k, hk, -⟩ | ⟨-, e⟩ := s.setKeyCode_cases code p
  · omega
  · exact e

theorem State.setKeyCode_eq_self {k : KeyIndex} (hcode : code = (k.val : Int)) (h : s.keyDownAt k.val = p) :
    s.setKeyCode code p = s := by
  obtain ⟨k', hk', e⟩ | ⟨-, e⟩ := s.setKeyCode_cases code p <;> rw [e]
  have hkk : k' = k := Fin.ext (by omega)
  exact State.setKey_eq_self (hkk ▸ h)

end

/-- Settles O51: both events are `setKeyCode`, with the flag set and with it cleared. -/
theorem keyEventsSetOneFlag : Obligations.KeyEventsSetOneFlag := fun _ code s =>
  ⟨⟨s.setKeyCode code true, rfl, fun _ => s.setKeyCode_keyDownAt code true, onlyChanges_setKeyCode s code true,
      s.setKeyCode_of_out_of_range, fun _ => s.setKeyCode_eq_self⟩,
    ⟨s.setKeyCode code false, rfl, fun _ => s.setKeyCode_keyDownAt code false, onlyChanges_setKeyCode s code false,
      s.setKeyCode_of_out_of_range, fun _ => s.setKeyCode_eq_self⟩⟩

/-! One key under one host operation. -/

theorem State.keyDownAt_congr {s t : State} (h : t.key = s.key) (n : Nat) : t.keyDownAt n = s.keyDownAt n := by
  simp only [State.keyDownAt, h]

/-- After Reset no key is down (R43). -/
theorem State.resetWith_keyDownAt (font : Font) (n : Nat) : (State.resetWith font).keyDownAt n = false := by
  simp [State.keyDownAt, State.resetWith, State.reset]

theorem State.resetOp_keyDownAt (font : Font) (s : State) (n : Nat) : (s.resetOp font).keyDownAt n = false :=
  State.resetWith_keyDownAt font n

section
variable {font : Font} {k : KeyIndex} {l : Label} {s : State} {d : Done} (hd : perform font l s = .next d)
include hd

/-- After an operation that touches a key, the key is down exactly when the operation was its KeyDown. -/
theorem perform_keyDownAt_iff_of_touchesKey (h : touchesKey k l = true) :
    d.state.keyDownAt k.val = true ↔ l = .keyDown (k.val : Int) := by
  cases l with
  | reset =>
    cases hd
    simp [State.resetOp_keyDownAt]
  | loadProgram image =>
    have hlen : image.length ≤ 3583 := of_decide_eq_true h
    obtain ⟨hlong, -⟩ | ⟨-, e⟩ := s.loadProgram_cases font image
    · omega
    · rw [perform, e] at hd
      cases hd
      simp [State.resetOp_keyDownAt]
  | keyDown code | keyUp code =>
    have hcode : code = (k.val : Int) := eq_of_beq h
    cases hd
    simp [State.keyDown, State.keyUp, State.setKeyCode_keyDownAt _ _ _ k.isLt, hcode]
  | step | tickTimers | readFramebuffer | introspect => cases h

/-- An operation that does not touch a key leaves it: a failed load (D17), an event of another key, and a Step among them. -/
theorem perform_keyDownAt_of_not_touchesKey (h : touchesKey k l = false) :
    d.state.keyDownAt k.val = s.keyDownAt k.val := by
  cases l with
  | reset => cases h
  | loadProgram image =>
    have hlen : ¬ image.length ≤ 3583 := of_decide_eq_false h
    obtain ⟨-, e⟩ | ⟨hfits, -⟩ := s.loadProgram_cases font image
    · rw [perform, e] at hd
      cases hd
      rfl
    · exact absurd hfits hlen
  | keyDown code | keyUp code =>
    have hcode : code ≠ (k.val : Int) := ne_of_beq_false h
    cases hd
    exact (s.setKeyCode_keyDownAt code _ k.isLt).trans (if_neg hcode)
  | step =>
    obtain ⟨t, ht, hkey, -⟩ := step_next s
    cases (perform_step_of_next font ht).symm.trans hd
    exact State.keyDownAt_congr hkey k.val
  | tickTimers | readFramebuffer | introspect =>
    cases hd
    rfl

end

/-- Settles O60: an operation touches the key or it does not. -/
theorem keyAfterOneOperation : Obligations.KeyAfterOneOperation := by
  intro font k l s
  obtain ⟨d, hd, -⟩ := perform_next font l s
  exact ⟨d, hd, perform_keyDownAt_iff_of_touchesKey hd, perform_keyDownAt_of_not_touchesKey hd⟩

/-! One key under a schedule. -/

/-- A schedule and then one operation more. -/
theorem schedule_concat {font : Font} {ls : List Label} {l : Label} {s t : State} {d : Done}
    (ht : schedule font ls s = .next t) (hd : perform font l t = .next d) :
    schedule font (ls ++ [l]) s = .next d.state := by
  induction ls generalizing s with
  | nil =>
    cases ht
    rw [List.nil_append, schedule, hd]
    rfl
  | cons l' ls ih =>
    obtain ⟨d', hd', -⟩ := perform_next font l' s
    rw [schedule, hd'] at ht
    rw [List.cons_append, schedule, hd']
    exact ih ht

/-- Settles O53, by induction on the schedule from its end: the last operation is the last that touched the key, or it left
the key as it was (O60). -/
theorem keyIsDownIffLastEventWasKeyDown : Obligations.KeyIsDownIffLastEventWasKeyDown := by
  intro font k ls
  induction ls using List.reverseRecOn with
  | nil => exact ⟨_, rfl, by simp [State.resetWith_keyDownAt]⟩
  | append_singleton ls l ih =>
    obtain ⟨t, ht, hkey⟩ := ih
    obtain ⟨d, hd, htouch, hleave⟩ := keyAfterOneOperation font k l t
    refine ⟨d.state, schedule_concat ht hd, ?_⟩
    cases hl : touchesKey k l with
    | true => simp [hl, htouch hl]
    | false => simpa [hl, hleave hl] using hkey

end Sys2Proof.Machine
end

section
/-! PROOFS. The abnormal conditions of a Step and what the host sees of the state (spec/60_exceptions.md). The flags a Step
reports are stated once, each by its condition (R251); which of them can coincide (R253) and when none is reported (R289)
follow from that. -/

namespace Sys2Proof.Machine

/-! Diag as data. -/

theorem Diag.eq_none_iff (d : Diag) : d = Diag.none ↔ d.unknownOpcode = false ∧ d.stackOverflow = false ∧
    d.stackUnderflow = false ∧ d.memOob = false := by
  cases d
  simp [Diag.none]

/-- The seven values of R253 are those in which UNKNOWN_OPCODE excludes the two stack flags, and STACK_UNDERFLOW excludes
STACK_OVERFLOW and MEM_OOB. -/
theorem Diag.bits_mem_of_exclusive {d : Diag}
    (hunknown : d.unknownOpcode = true → d.stackOverflow = false ∧ d.stackUnderflow = false)
    (hunder : d.stackUnderflow = true → d.stackOverflow = false ∧ d.memOob = false) :
    d.bits ∈ [0b0000#4, 0b0001#4, 0b0010#4, 0b0100#4, 0b1000#4, 0b1001#4, 0b1010#4] := by
  obtain ⟨unknownOpcode, stackOverflow, stackUnderflow, memOob⟩ := d
  revert unknownOpcode stackOverflow stackUnderflow memOob
  decide

/-! The flags a Step reports, by condition (R251). -/

@[simp] theorem State.afterFetch_i (s : State) : s.afterFetch.i = s.i :=
  onlyChanges_afterFetch s .i (by decide)

@[simp] theorem State.afterFetch_depth (s : State) : s.afterFetch.depth = s.depth :=
  congrArg List.length s.afterFetch_stack

/-- The diag of a Step that runs an instruction: CALL on a full stack, RET on an empty one, and an access out of bounds, in
the fetch or in the execution part. -/
theorem step_diag_of_instr {s t : State} {i : Instr} (hdec : decode s.fetchWord = .instr i) (h : step s = .next t) :
    t.diag.unknownOpcode = false ∧
    (t.diag.stackOverflow = true ↔ (∃ nnn, i = .callNnn nnn) ∧ 16 ≤ s.depth) ∧
    (t.diag.stackUnderflow = true ↔ i = .ret ∧ s.depth = 0) ∧
    (t.diag.memOob = true ↔ 4096 ≤ s.pc.toNat + 1 ∨ dataBytes i ≠ 0 ∧ 4096 < s.i.toNat + dataBytes i) := by
  have hfetch : s.afterFetch.diag = ⟨false, false, false, decide (4096 ≤ s.pc.toNat + 1)⟩ := by
    rw [State.afterFetch_eq_lowByte]
  obtain ⟨t', ht', hdiag⟩ := exec_diag i s.afterFetch
  cases ht'.symm.trans ((step_of_instr hdec).symm.trans h)
  simpa [hfetch] using hdiag

/-- The low byte of a RET is 0xEE, and a low byte read out of bounds is 0x00: both bytes of a RET are fetched in bounds
(R253). -/
theorem pc_lt_of_decode_fetchWord_ret {s : State} (h : decode s.fetchWord = .instr .ret) : s.pc.toNat + 1 < 4096 := by
  by_contra hpc
  have hlow : kkField s.fetchWord = 0xEE#8 := ((and_F0FF_iff s.fetchWord 0x0#4 0xEE#8).1 (Laws.decode_matches h)).2
  rw [State.kkField_fetchWord_oob (Nat.not_lt.1 hpc)] at hlow
  exact absurd hlow (by decide)

/-! Which flags coincide (R253). -/

/-- A Step that reports UNKNOWN_OPCODE ran no instruction, so it met no condition of the call stack. -/
theorem step_unknownOpcode_excludes_stack {s t : State} (h : step s = .next t) (hunknown : t.diag.unknownOpcode = true) :
    t.diag.stackOverflow = false ∧ t.diag.stackUnderflow = false := by
  cases hdec : decode s.fetchWord with
  | instr i =>
    obtain ⟨hknown, -⟩ := step_diag_of_instr hdec h
    rw [hknown] at hunknown
    cases hunknown
  | reject r =>
    cases (step_of_reject_eq hdec).symm.trans h
    exact ⟨rfl, rfl⟩

/-- A Step that reports STACK_UNDERFLOW ran RET, which is no CALL, is fetched in bounds and makes no data access. -/
theorem step_stackUnderflow_excludes_others {s t : State} (h : step s = .next t)
    (hunder : t.diag.stackUnderflow = true) : t.diag.stackOverflow = false ∧ t.diag.memOob = false := by
  cases hdec : decode s.fetchWord with
  | instr i =>
    obtain ⟨-, hover_iff, hunder_iff, hoob_iff⟩ := step_diag_of_instr hdec h
    obtain ⟨rfl, -⟩ := hunder_iff.1 hunder
    rw [← Bool.not_eq_true, ← Bool.not_eq_true, hover_iff, hoob_iff]
    refine ⟨?_, ?_⟩
    · rintro ⟨⟨nnn, hcall⟩, -⟩
      cases hcall
    · rintro (hfetch | ⟨hdata, -⟩)
      · exact absurd (pc_lt_of_decode_fetchWord_ret hdec) (Nat.not_lt.2 hfetch)
      · exact hdata rfl
  | reject r =>
    cases (step_of_reject_eq hdec).symm.trans h
    cases hunder

/-- Settles O11: the exclusions of R253 leave seven values. -/
theorem diagTakesSevenValues : Obligations.DiagTakesSevenValues := fun _ _ h =>
  Diag.bits_mem_of_exclusive (step_unknownOpcode_excludes_stack h) (step_stackUnderflow_excludes_others h)

/-! No flag at all (R289). -/

/-- A Step that runs an instruction is clean exactly when none of the conditions of R251 holds. -/
theorem step_diag_eq_none_iff {s t : State} {i : Instr} (hdec : decode s.fetchWord = .instr i) (h : step s = .next t) :
    t.diag = Diag.none ↔ s.pc.toNat + 1 < 4096 ∧ (dataBytes i = 0 ∨ s.i.toNat + dataBytes i ≤ 4096) ∧
      ((∃ nnn, i = .callNnn nnn) → s.depth < 16) ∧ (i = .ret → 0 < s.depth) := by
  obtain ⟨hknown, hover_iff, hunder_iff, hoob_iff⟩ := step_diag_of_instr hdec h
  have hover : t.diag.stackOverflow = false ↔ ((∃ nnn, i = .callNnn nnn) → s.depth < 16) := by
    rw [← Bool.not_eq_true, hover_iff, not_and, Nat.not_le]
  have hunder : t.diag.stackUnderflow = false ↔ (i = .ret → 0 < s.depth) := by
    rw [← Bool.not_eq_true, hunder_iff, not_and, Nat.pos_iff_ne_zero]
  have hoob : t.diag.memOob = false ↔
      s.pc.toNat + 1 < 4096 ∧ (dataBytes i = 0 ∨ s.i.toNat + dataBytes i ≤ 4096) := by
    rw [← Bool.not_eq_true, hoob_iff]
    omega
  rw [Diag.eq_none_iff, hover, hunder, hoob]
  constructor
  · rintro ⟨-, hcall, hret, hpc, hdata⟩
    exact ⟨hpc, hdata, hcall, hret⟩
  · rintro ⟨hpc, hdata, hcall, hret⟩
    exact ⟨hknown, hcall, hret, hpc, hdata⟩

/-- Settles O12: an unknown opcode is always reported, and `step_diag_eq_none_iff` is the case of an instruction. -/
theorem cleanStepConditions : Obligations.CleanStepConditions := by
  intro s
  constructor
  · rintro ⟨t, ht, hclean⟩
    cases hdec : decode s.fetchWord with
    | instr i => exact ⟨i, rfl, (step_diag_eq_none_iff hdec ht).1 hclean⟩
    | reject r =>
      cases (step_of_reject_eq hdec).symm.trans ht
      cases hclean
  · rintro ⟨i, hdec, hconds⟩
    obtain ⟨t, ht, -⟩ := step_next s
    exact ⟨t, ht, (step_diag_eq_none_iff hdec ht).2 hconds⟩

/-! Introspection (R260). -/

theorem State.view_v_getElem? (s : State) (j : Reg) : s.view.v[j.val]? = some (s.getV j) := by
  simp [State.view, State.getV, Vector.get_eq_getElem]

theorem State.view_key_getElem? (s : State) {k : Nat} (hk : k < 16) : s.view.key[k]? = some (s.keyDownAt k) := by
  simp [State.view, State.keyDownAt, hk]

theorem State.view_mem_getElem? (s : State) {a : Nat} (ha : a < 4096) : s.view.mem[a]? = some (s.readByte a) := by
  simp [State.view, Config.memSize, ha]

/-- Settles O57: the view lists the registers, keys and bytes in order of their index, and the stack from its bottom. -/
theorem introspectionShowsTheState : Obligations.IntrospectionShowsTheState := by
  intro font s
  have hmem : s.view.mem.length = 4096 := by rw [State.view, List.length_map, List.length_range, Config.memSize]
  exact ⟨s.view, rfl, rfl, rfl, rfl, rfl, List.reverse_reverse s.stack, rfl, s.view_v_getElem?,
    fun _ hk => s.view_key_getElem? hk, fun _ ha => s.view_mem_getElem? ha, Vector.length_toList, Vector.length_toList,
    hmem⟩

end Sys2Proof.Machine
end

section
/-! PROOFS. Reset and LoadProgram (spec/70_reset_and_hazards.md R280, R282). Reset gives the state of R43 but for the model's
own draw counter; a load that fits is Reset and then a change of memory alone, so each rests on what a state after Reset
reads. -/

namespace Sys2Proof.Machine

/-! Reset (R43, R280). -/

theorem State.resetWith_getV (font : Font) (j : Reg) : (State.resetWith font).getV j = 0x00#8 := by
  simp [State.getV, Vector.get_eq_getElem, State.resetWith, State.reset]

theorem State.resetWith_pixel (font : Font) (r c : Nat) : (State.resetWith font).pixel r c = false :=
  Framebuffer.get_clear r c

/-- From any state Reset gives one state, up to the draw counter, which runs on (log 1). -/
theorem onlyChanges_resetOp (font : Font) (s : State) : OnlyChanges [.draws] (State.resetWith font) (s.resetOp font) := by
  intro p hp
  cases p
  case draws => exact absurd List.mem_cons_self hp
  case v | key | mem => exact fun _ => rfl
  case fb => exact fun _ _ => rfl
  case i | pc | stack | dt | st | diag => rfl

theorem State.resetOp_readByte (font : Font) (s : State) (a : Nat) :
    (s.resetOp font).readByte a = (State.resetWith font).readByte a :=
  onlyChanges_resetOp font s .mem (by decide) a

/-- Settles O54: what a state after Reset reads, element by element; the second Reset finds the draw counter of the first. -/
theorem resetLeavesEveryElementAtItsValue : Obligations.ResetLeavesEveryElementAtItsValue := by
  intro font s
  refine ⟨s.resetOp font, rfl, State.resetWith_getV font, rfl, rfl, rfl, rfl, rfl, s.resetOp_keyDownAt font,
    State.resetWith_pixel font, fun a h => ?_, fun a hlow _ => ?_, rfl, rfl, onlyChanges_resetOp font s, rfl⟩
  · rw [State.resetOp_readByte, State.resetWith_readByte, dif_pos h]
  · rw [State.resetOp_readByte, State.resetWith_readByte, dif_neg (Nat.not_lt.2 hlow)]

/-! LoadProgram (R282, D17). -/

section
variable (s : State) {a : Nat} {bs : List Byte}

/-- The byte at offset k of a list placed in memory, where it is in bounds. -/
theorem State.setMem_putAll_readByte_in_block {k : Nat} (hk : k < bs.length) (hb : a + k < 4096) :
    (s.setMem (s.mem.putAll a bs)).readByte (a + k) = bs[k] := by
  rw [State.readByte_eq, if_pos hb, State.setMem_mem, Memory.get_putAll, dif_pos (by omega)]
  simp only [Nat.add_sub_cancel_left]

theorem State.setMem_putAll_readByte_outside {a' : Nat} (h : ¬ (a ≤ a' ∧ a' < a + bs.length)) :
    (s.setMem (s.mem.putAll a bs)).readByte a' = s.readByte a' := by
  rw [State.readByte_eq, State.setMem_mem, Memory.get_putAll, dif_neg (by omega), State.readByte_eq]

end

/-- Settles O55: the cases of `State.loadProgram_cases`; an image that fits ends at or below 0xFFF, so that all of it is
placed in bounds. -/
theorem loadProgramResetsAndPlacesImage : Obligations.LoadProgramResetsAndPlacesImage := by
  intro font image s
  obtain ⟨hlong, e⟩ | ⟨hfits, e⟩ := s.loadProgram_cases font image
  · exact ⟨fun _ => by rw [perform, e], fun hfits => absurd hfits (Nat.not_le.2 hlong)⟩
  · refine ⟨fun hlong => absurd hfits (Nat.not_le.2 hlong), fun _ =>
      ⟨_, by rw [perform, e], fun k hk => ?_, fun a ha => ?_, ?_⟩⟩
    · exact (s.resetOp font).setMem_putAll_readByte_in_block hk (by omega)
    · exact ((s.resetOp font).setMem_putAll_readByte_outside ha).trans (s.resetOp_readByte font a)
    · exact ((onlyChanges_resetOp font s).trans (onlyChanges_setMem _ _)).mono (by simp)

end Sys2Proof.Machine
end
